-- ==== Sys2Proof/Word.lean ====
section
/-! DEFINITION. The word types of Simple16: 16-bit words, 8-bit bytes, register numbers, I/O port numbers (00_scope.md R4, 10_state.md R10). -/

namespace Sys2Proof

/-- A word is 16 bits: a register value, an address, an instruction (R4, R10, R30, R50). -/
abbrev Word := BitVec 16

/-- A byte is 8 bits (R4, R30). -/
abbrev Byte := BitVec 8

/-- A register number, 0 to 15 (R10, R11). -/
abbrev RegNum := Fin 16

end Sys2Proof
end

