-- ==== Sys2Proof/Config.lean ====
section
/-! DEFINITION. The configuration record the model takes as an argument (00_scope.md R3), as plain data, and the free values of the model: constants with no body. -/

namespace Sys2Proof

/-- `ENDIAN` (20_memory.md R34): one byte order for data words and instruction words alike. -/
inductive Endian where
  | big
  | little
  deriving DecidableEq, Repr

/-- `LD8_EXT` (41_load_store.md R75): what `ld8` leaves in rD[15:8]. -/
inductive Ld8Ext where
  | zero
  | sign
  | keep
  | draw
  deriving DecidableEq, Repr

/-- `SUB_CARRY` (45_two_operand.md R116): the C flag of `neg` and `cmp`. -/
inductive SubCarry where
  | addComplement
  | borrow
  | draw
  deriving DecidableEq, Repr

/-- The three shifts, the first argument of `SHIFT_EDGE` (R99). -/
inductive ShiftKind where
  | lsl
  | lsr
  | asr
  deriving DecidableEq, Repr

/-- A Boolean formula over the four arguments of a supplied `SHIFT_EDGE` (R99): kind, v, n, C before. -/
inductive EdgeTerm where
  | const (b : Bool)
  /-- bit i of v, the value shifted -/
  | value (i : Fin 16)
  /-- bit i of n, the amount -/
  | amount (i : Fin 16)
  /-- C before the instruction -/
  | carry
  /-- the shift is of this kind -/
  | kindIs (kind : ShiftKind)
  | not (a : EdgeTerm)
  | and (a b : EdgeTerm)
  deriving DecidableEq, Repr

/-- A total function that a configuration supplies for `SHIFT_EDGE` (R99), as data: a formula for each bit of the result and
one for C.  Every function of the four arguments is one of these (`Machine.edgeFunction_complete`). -/
structure EdgeFunction where
  result : Vector EdgeTerm 16
  carry : EdgeTerm
  deriving DecidableEq, Repr

/-- `SHIFT_EDGE` (43_shift.md R99): a draw, or a supplied total function. -/
inductive ShiftEdge where
  | draw
  | supplied (f : EdgeFunction)
  deriving DecidableEq, Repr

/-- `IN_FLAGS` (46_io.md R122): the flags after `in`. -/
inductive InFlags where
  | unchanged
  | draw
  deriving DecidableEq, Repr

/-- The three kinds of memory access of `MEM_ADMIT` (20_memory.md R38). -/
inductive AccessKind where
  | read
  | write
  | fetch
  deriving DecidableEq, Repr

/-- One argument tuple of `COND`: a condition number and the three flags (44_branch.md R106). -/
structure CondCase where
  cc : BitVec 4
  c : Bool
  n : Bool
  z : Bool
  deriving DecidableEq, Repr

/-- `COND` (44_branch.md R106): left OPEN (the free function `Config.condFunction`), or given as the list of the
argument tuples at which it is true.  Every function of cc, C, N and Z is such a list. -/
inductive CondTable where
  | unknown
  | given (holds : List CondCase)
  deriving DecidableEq, Repr

/-- A stretch of addresses that the launch admits for some kinds of access (20_memory.md R38). -/
structure Region where
  base : Nat
  size : Nat
  read : Bool
  write : Bool
  fetch : Bool
  deriving DecidableEq, Repr

/-- One entry of the port history (20_memory.md R32). -/
inductive PortEvent where
  | read (port : Word)
  deriving DecidableEq, Repr

/-- The configuration record of 00_scope.md R3.  The rows XLEN, NREGS, ILEN and ALEN of that table are the fixed
types of Word.lean, and PORT_READ is the free function `Config.portRead`. -/
structure Config where
  /-- `PC_REGNUM`, the register number that names PC (D2) -/
  pcRegnum : RegNum
  /-- `RESERVED_REGS`, the register numbers refused as operands (D3) -/
  reservedRegs : List RegNum
  /-- `ADMIT_PC_OPERANDS` (D5) -/
  admitPcOperands : Bool
  /-- `PC_READ_BIAS` (D5) -/
  pcReadBias : Word
  /-- `BRANCH_BIAS` (D19) -/
  branchBias : Word
  /-- `COND` (D18) -/
  cond : CondTable
  /-- `ENDIAN` (D8) -/
  endian : Endian
  /-- `LD8_EXT` (D11) -/
  ld8Ext : Ld8Ext
  /-- `SUB_CARRY` (D21) -/
  subCarry : SubCarry
  /-- `SHIFT_EDGE` (D20) -/
  shiftEdge : ShiftEdge
  /-- `IN_SUBOP`, or `none` when it is not supplied (D22) -/
  inSubop : Option (BitVec 4)
  /-- `IN_FLAGS` (D22) -/
  inFlags : InFlags
  /-- `MEM_ADMIT`, as the list of the admitted stretches (D13) -/
  memAdmit : List Region
  /-- `RESET_PC` (D26) -/
  resetPc : Word
  /-- `HALT_ADDR`, or `none` when the launch names no end of the run (D27) -/
  haltAddr : Option Word
  deriving DecidableEq, Repr

/-- The k-th drawn bit (00_scope.md R6): a free value. -/
opaque Config.freeBit : Nat → Bool

/-- The k-th drawn byte (00_scope.md R6): a free value. -/
opaque Config.freeByte : Nat → Byte

/-- The k-th drawn word (00_scope.md R6): a free value. -/
opaque Config.freeWord : Nat → Word

/-- The oracle `PORT_READ` (20_memory.md R32): history before the read, port number, free choice.  Unconstrained. -/
opaque Config.portRead : List PortEvent → Word → Nat → Word

/-- `COND` where it is left OPEN (44_branch.md R106): a free function of cc, C, N and Z and of nothing else. -/
opaque Config.condFunction : BitVec 4 → Bool → Bool → Bool → Bool

/-- `PC_READ_BIAS` where the launch leaves it OPEN (D5): a free constant. -/
opaque Config.openPcReadBias : Word

end Sys2Proof
end

