-- ==== Sys2Proof/Machine/Launch.lean ====
section
/-! DEFINITION. The one configuration that State.reset is launched with.  The spec leaves these parameters to the launch (00_scope.md R3); no meaning of the machine names this record, and every statement holds for every configuration. -/

namespace Sys2Proof

/-- All of the address space, admitted for every kind of access. -/
def Config.wholeMemory : Region :=
  { base := 0, size := 65536, read := true, write := true, fetch := true }

/-- The launch of `State.reset`.  Fields with a default in R3 hold it; DESIGN CHOICE for `pcRegnum`, `endian`, `memAdmit`,
`resetPc` and `haltAddr` (log 2, 3, 4, 5, 10); `cond` and `pcReadBias` stay free. -/
def Config.launch : Config :=
  { pcRegnum := 14
    reservedRegs := []
    admitPcOperands := false
    pcReadBias := Config.openPcReadBias
    branchBias := 8
    cond := .unknown
    endian := .big
    ld8Ext := .draw
    subCarry := .draw
    shiftEdge := .draw
    inSubop := none
    inFlags := .draw
    memAdmit := [Config.wholeMemory]
    resetPc := 0
    haltAddr := none }

end Sys2Proof
end

