-- ==== Sys2Proof/Machine/Memory.lean ====
section
/-! DEFINITION. Memory: a list of (address, byte) pairs in one canonical form, over the 2^16 byte locations of 20_memory.md R30. -/

namespace Sys2Proof.Machine

/-- Memory as data: the listed cells, addresses strictly rising. -/
abbrev Memory := List Host.Cell

/-- What an address that is not listed reads as.  DESIGN CHOICE (log 7): R25 leaves the contents unspecified. -/
def Memory.unlisted : Byte := 0

/-- The byte at an address. -/
def Memory.read : Memory → Nat → Byte
  | [], _ => Memory.unlisted
  | cell :: rest, addr => if cell.1 = addr then cell.2 else Memory.read rest addr

/-- The cells without those at `addr`. -/
def Memory.erase (m : Memory) (addr : Nat) : Memory := m.filter fun cell => cell.1 != addr

/-- Put a cell before the first cell of a higher address. -/
def Memory.insert (addr : Nat) (v : Byte) : Memory → Memory
  | [] => [(addr, v)]
  | cell :: rest => if cell.1 < addr then cell :: Memory.insert addr v rest else (addr, v) :: cell :: rest

/-- Write one byte, keeping the canonical form: a byte equal to `Memory.unlisted` is not listed. -/
def Memory.write (m : Memory) (addr : Nat) (v : Byte) : Memory :=
  if v = Memory.unlisted then Memory.erase m addr else Memory.insert addr v (Memory.erase m addr)

/-- The canonical form: addresses strictly rising, inside the address space, no cell that reads as an unlisted one. -/
def Memory.wf : Memory → Bool
  | [] => true
  | cell :: rest =>
    decide (cell.1 < 65536) && cell.2 != Memory.unlisted && rest.all (fun other => decide (cell.1 < other.1)) &&
      Memory.wf rest

end Sys2Proof.Machine
end

