-- ==== Sys2Proof/Machine/State.lean ====
section
/-! DEFINITION. The state of the model as plain data (10_state.md R24), its reset (R25), and the reasons a step can stop. -/

namespace Sys2Proof.Machine

/-- Why a run stops with a fault (00_scope.md R6, 60_exceptions.md R132). -/
inductive Fault where
  /-- The hardware exception, raised at address `addr` by a `bCC` word with cc > 9 (R107, R131).  The source describes no
  entry, so the run ends (R133).  Safe: behaviours are taken away. -/
  | invalidInstruction (w addr : Word)
  /-- `ld16` or `str16` at an odd address (20_memory.md R35).  Safe. -/
  | misalignedData (ea : Word)
  /-- Fetch at an odd pc (20_memory.md R36).  Safe. -/
  | misalignedFetch (pc : Word)
  /-- Access to a byte that `MEM_ADMIT` does not admit (20_memory.md R38).  Safe. -/
  | accessNotAdmitted (addr : Word) (kind : AccessKind)
  /-- `str8` or `str16` into the prefetch window (20_memory.md R43).  Safe. -/
  | prefetchWindowStore (ea : Word)
  deriving DecidableEq, Repr

/-- Why a run stops because no meaning is given (00_scope.md R6). -/
inductive Refusal where
  /-- Raised by exec's arm of an instruction that has no meaning yet.  Safe. -/
  | notModelled (mnemonic : String)
  /-- A word of the $F group that the source does not show (30_encoding.md R60).  Safe. -/
  | notShown (w : Word)
  /-- A register field names PC where no meaning is admitted (10_state.md R19).  `none` stands for an `in` given as syntax
  when it has no word.  Safe. -/
  | pcOperand (w : Option Word)
  /-- A register field names a register of `RESERVED_REGS` (10_state.md R12, R19).  Safe. -/
  | reservedReg (w : Option Word)
  deriving DecidableEq, Repr

/-- The sticky outcome mark (00_scope.md R6, 10_state.md R24); the hardware exception is the fault
`Fault.invalidInstruction`. -/
inductive Mark where
  | faulted (f : Fault)
  | refused (r : Refusal)
  deriving DecidableEq, Repr

/-- The three flags (10_state.md R16). -/
structure Flags where
  c : Bool
  n : Bool
  z : Bool
  deriving DecidableEq, Repr

/-- The state (10_state.md R24). -/
structure State where
  /-- `x[0..15]`; the slot of number PC_REGNUM is no register and is never read or written (log 9) -/
  regs : Vector Word 16
  /-- the byte address of the instruction being executed (R13) -/
  pc : Word
  /-- C, N, Z (R16) -/
  flags : Flags
  /-- the byte-addressed memory (R30) -/
  mem : Memory
  /-- the port reads made so far, oldest first (R32) -/
  portHistory : List PortEvent
  /-- the sticky outcome mark (R6) -/
  mark : Option Mark
  /-- the configuration the model takes as an argument (R3); no step changes it (log 1) -/
  cfg : Config
  /-- how many free values have been drawn: the model's own field (log 8) -/
  draws : Nat
  deriving DecidableEq, Repr

/-- What a step or a meaning answers. -/
abbrev Result := Host.Outcome State Fault Refusal

def State.setPc (s : State) (v : Word) : State := { s with pc := v }

def State.setReg (s : State) (r : RegNum) (v : Word) : State := { s with regs := s.regs.set r v }

def State.setFlags (s : State) (f : Flags) : State := { s with flags := f }

def State.setMem (s : State) (m : Memory) : State := { s with mem := m }

def State.logPortRead (s : State) (p : Word) : State := { s with portHistory := s.portHistory ++ [.read p] }

def State.setMark (s : State) (m : Mark) : State := { s with mark := some m }

/-- The same state at another value of the counter of draws: for statements about it. -/
def State.setDraws (s : State) (k : Nat) : State := { s with draws := k }

/-- Count `k` more free values as drawn. -/
def State.drew (s : State) (k : Nat) : State := { s with draws := s.draws + k }

/-- The machine right after reset under a configuration: pc, mark and port history as R25 states them; registers and
flags zero and memory unlisted, DESIGN CHOICE (log 6, 7), since R25 leaves them unspecified. -/
def State.resetWith (cfg : Config) : State :=
  { regs := Vector.replicate 16 0
    pc := cfg.resetPc
    flags := { c := false, n := false, z := false }
    mem := []
    portHistory := []
    mark := none
    cfg := cfg
    draws := 0 }

/-- Reset under the one configuration of the launch (log 2, 3, 4, 5). -/
def State.reset : State := State.resetWith Config.launch

end Sys2Proof.Machine
end

