-- ==== Sys2Proof/Machine/Flags.lean ====
section
/-! DEFINITION. Flag computations (10_state.md R16, R17) and the arithmetic they come from. -/

namespace Sys2Proof.Machine

/-- `setNZ(v)` (00_scope.md R5). -/
def setNZ (f : Flags) (v : Word) : Flags := { f with n := v.getLsbD 15, z := decide (v = 0) }

/-- The flags of an instruction that sets C, N and Z. -/
def flagsOf (c : Bool) (v : Word) : Flags := { c := c, n := v.getLsbD 15, z := decide (v = 0) }

/-- The sum computed without truncation (42_arithmetic_logic.md R85, R86). -/
def exactSum (x y : Word) (carryIn : Bool) : Nat := x.toNat + y.toNat + carryIn.toNat

/-- `s[15:0]` of an exact sum. -/
def sumResult (sum : Nat) : Word := BitVec.ofNat 16 sum

/-- `s[16]` of an exact sum: the carry out of bit 15 (R85, R86). -/
def sumCarry (sum : Nat) : Bool := sum.testBit 16

/-- The difference `m - s` modulo 2^16 (45_two_operand.md R111, R113). -/
def difference (m s : Word) : Word := m - s

/-- The C flag of the subtraction `m - s`, and how many free values it drew (R116). -/
def subtractionCarry (st : State) (m s : Word) : Bool × Nat :=
  match st.cfg.subCarry with
  | .addComplement => (decide (s.toNat ≤ m.toNat), 0)
  | .borrow => (decide (m.toNat < s.toNat), 0)
  | .draw => (Config.freeBit st.draws, 1)

/-- The result of a shift by `1 ≤ n ≤ 15` (43_shift.md R96, R97, R98). -/
def shiftResult (kind : ShiftKind) (v : Word) (n : Nat) : Word :=
  match kind with
  | .lsl => v <<< n
  | .lsr => v >>> n
  | .asr => v.sshiftRight n

/-- The last bit shifted out by a shift by `1 ≤ n ≤ 15` (R96, R97, R98). -/
def shiftCarry (kind : ShiftKind) (v : Word) (n : Nat) : Bool :=
  match kind with
  | .lsl => v.getLsbD (16 - n)
  | .lsr | .asr => v.getLsbD (n - 1)

/-- What a shift gives: result, C, and how many free values it drew. -/
structure Shifted where
  result : Word
  carry : Bool
  drawn : Nat
  deriving DecidableEq, Repr

/-- The value of a formula of a supplied `SHIFT_EDGE` at its four arguments (R99). -/
def edgeBit (kind : ShiftKind) (v n : Word) (carryBefore : Bool) : EdgeTerm → Bool
  | .const b => b
  | .value i => v.getLsbD i
  | .amount i => n.getLsbD i
  | .carry => carryBefore
  | .kindIs k => decide (kind = k)
  | .not a => !edgeBit kind v n carryBefore a
  | .and a b => edgeBit kind v n carryBefore a && edgeBit kind v n carryBefore b

/-- `SHIFT_EDGE(kind, v, n, C_before) -> (r, c)` of a supplied function (R99). -/
def edgeAnswer (f : EdgeFunction) (kind : ShiftKind) (v n : Word) (carryBefore : Bool) : Word × Bool :=
  (BitVec.ofFnLE fun i : Fin 16 => edgeBit kind v n carryBefore f.result[i], edgeBit kind v n carryBefore f.carry)

/-- A shift by 0 or by 16 or more (R99). -/
def shiftEdge (st : State) (kind : ShiftKind) (v n : Word) : Shifted :=
  match st.cfg.shiftEdge with
  | .supplied f =>
    let answer := edgeAnswer f kind v n st.flags.c
    { result := answer.1, carry := answer.2, drawn := 0 }
  | .draw =>
    { result := if n = 0 then v else Config.freeWord st.draws, carry := Config.freeBit st.draws, drawn := 1 }

/-- A shift of `v` by the whole register value `n` (R95). -/
def shift (st : State) (kind : ShiftKind) (v n : Word) : Shifted :=
  if 1 ≤ n.toNat ∧ n.toNat ≤ 15 then
    { result := shiftResult kind v n.toNat, carry := shiftCarry kind v n.toNat, drawn := 0 }
  else shiftEdge st kind v n

/-- `COND(cc, C, N, Z)` (44_branch.md R106). -/
def condHolds (cfg : Config) (cc : BitVec 4) (f : Flags) : Bool :=
  match cfg.cond with
  | .unknown => Config.condFunction cc f.c f.n f.z
  | .given holds => holds.contains { cc := cc, c := f.c, n := f.n, z := f.z }

/-- The flags after `in`, and how many free values were drawn from `k` on (46_io.md R122). -/
def inFlags (st : State) (k : Nat) : Flags × Nat :=
  match st.cfg.inFlags with
  | .unchanged => (st.flags, 0)
  | .draw => ({ c := Config.freeBit k, n := Config.freeBit (k + 1), z := Config.freeBit (k + 2) }, 3)

end Sys2Proof.Machine
end

