-- ==== Sys2Proof/Machine/Bytes.lean ====
section
/-! DEFINITION. Bit fields, sign extension and byte order: the helpers that the decoder and the machine share. -/

namespace Sys2Proof

/-- `op = w[3:0]` (30_encoding.md R51). -/
def opField (w : Word) : BitVec 4 := w.extractLsb' 0 4

/-- `sub = w[7:4]` (R51). -/
def subField (w : Word) : BitVec 4 := w.extractLsb' 4 4

/-- `cc = w[15:12]` (R51). -/
def ccField (w : Word) : BitVec 4 := w.extractLsb' 12 4

/-- `imm8 = w[11:4]` (R51). -/
def immField (w : Word) : Byte := w.extractLsb' 4 8

/-- `d = w[15:12]`, an unsigned register number (R51, R58). -/
def dField (w : Word) : RegNum := (w.extractLsb' 12 4).toFin

/-- `a = w[11:8]` (R51). -/
def aField (w : Word) : RegNum := (w.extractLsb' 8 4).toFin

/-- `b = w[7:4]` (R51). -/
def bField (w : Word) : RegNum := (w.extractLsb' 4 4).toFin

/-- `v[0] = 1`: an odd address (20_memory.md R35, R36). -/
def isOdd (v : Word) : Bool := v.getLsbD 0

/-- `sext_16` (00_scope.md R5). -/
def signExtend8 (v : Byte) : Word := v.signExtend 16

/-- Bits 15:8 of a word. -/
def highByte (v : Word) : Byte := v.extractLsb' 8 8

/-- Bits 7:0 of a word. -/
def lowByte (v : Word) : Byte := v.extractLsb' 0 8

/-- `{high, low}`: the word with these two bytes (R4). -/
def joinBytes (high low : Byte) : Word := high ++ low

/-- The word whose bytes lie at addr and addr+1, in that order (20_memory.md R34). -/
def wordOfBytes (e : Endian) (first second : Byte) : Word :=
  match e with
  | .big => joinBytes first second
  | .little => joinBytes second first

/-- The byte of a word that lies at addr (R34). -/
def firstByte (e : Endian) (v : Word) : Byte :=
  match e with
  | .big => highByte v
  | .little => lowByte v

/-- The byte of a word that lies at addr+1 (R34). -/
def secondByte (e : Endian) (v : Word) : Byte :=
  match e with
  | .big => lowByte v
  | .little => highByte v

end Sys2Proof
end

