-- ==== Sys2Proof/Syntax.lean ====
section
/-! DEFINITION. The instructions as syntax: one constructor per row of spec/opcode_table.json, operands in the assembler's order, sources first and destination last (30_encoding.md R63). -/

namespace Sys2Proof

/-- The 22 instructions (00_scope.md R2).  Register operands are named `a`, `b`, `d` as the manual names rA, rB, rD. -/
inductive Instr where
  /-- `ldim IM, rD` (R70) -/
  | ldim (imm8 : Byte) (d : RegNum)
  /-- `ldimh IM, rD` (R71) -/
  | ldimh (imm8 : Byte) (d : RegNum)
  /-- `ld8 rA, rB, rD` (R75) -/
  | ld8 (a b d : RegNum)
  /-- `ld16 rA, rB, rD` (R76) -/
  | ld16 (a b d : RegNum)
  /-- `str8 rA, rB, rD`: rD holds the value stored (R77) -/
  | str8 (a b d : RegNum)
  /-- `str16 rA, rB, rD`: rD holds the value stored (R78) -/
  | str16 (a b d : RegNum)
  /-- `add rA, rB, rD` (R85) -/
  | add (a b d : RegNum)
  /-- `adc rA, rB, rD` (R86) -/
  | adc (a b d : RegNum)
  /-- `and rA, rB, rD` (R87) -/
  | and (a b d : RegNum)
  /-- `or rA, rB, rD` (R88) -/
  | or (a b d : RegNum)
  /-- `xor rA, rB, rD` (R89) -/
  | xor (a b d : RegNum)
  /-- `lsl rA, rB, rD` (R96) -/
  | lsl (a b d : RegNum)
  /-- `lsr rA, rB, rD` (R97) -/
  | lsr (a b d : RegNum)
  /-- `asr rA, rB, rD` (R98) -/
  | asr (a b d : RegNum)
  /-- `bCC LABEL`: condition number and signed 8-bit instruction offset (R105) -/
  | bcc (cc : BitVec 4) (imm8 : Byte)
  /-- `mov rA, rD` (R110) -/
  | mov (a d : RegNum)
  /-- `neg rA, rD` (R111) -/
  | neg (a d : RegNum)
  /-- `not rA, rD` (R112) -/
  | not (a d : RegNum)
  /-- `cmp rA, rD` (R113) -/
  | cmp (a d : RegNum)
  /-- `call rA, rD` (R114) -/
  | call (a d : RegNum)
  /-- `swap rA, rD` (R115) -/
  | swap (a d : RegNum)
  /-- `in rA, rD` (R120); `in` is a word of Lean's own -/
  | inPort (a d : RegNum)
  deriving DecidableEq, Repr

end Sys2Proof
end

