-- ==== Sys2Proof/WellFormed.lean ====
section
/-! DEFINITION. Which terms are instructions of the machine, and which configurations 00_scope.md R3 allows. -/

namespace Sys2Proof

/-- A `bCC` has a condition number 0 to 9; no other operand is restricted, since every format uses all 16 bits (R51,
R105, R106). -/
def Instr.wf : Instr → Bool
  | .bcc cc _ => cc.toNat ≤ 9
  | .ldim _ _ | .ldimh _ _ => true
  | .ld8 _ _ _ | .ld16 _ _ _ | .str8 _ _ _ | .str16 _ _ _ => true
  | .add _ _ _ | .adc _ _ _ | .and _ _ _ | .or _ _ _ | .xor _ _ _ => true
  | .lsl _ _ _ | .lsr _ _ _ | .asr _ _ _ => true
  | .mov _ _ | .neg _ _ | .not _ _ | .cmp _ _ | .call _ _ | .swap _ _ => true
  | .inPort _ _ => true

/-- `IN_SUBOP`, if supplied, is one of $6 to $F: the sub-opcodes the source does not show (R60, R121). -/
def Config.inSubopOk (cfg : Config) : Bool :=
  match cfg.inSubop with
  | none => true
  | some sub => 6 ≤ sub.toNat

/-- A configuration that the spec allows: `IN_SUBOP` is in range (R121) and `RESET_PC` is even (R25). -/
def Config.wf (cfg : Config) : Bool :=
  cfg.inSubopOk && !isOdd cfg.resetPc

end Sys2Proof
end

