-- ==== Sys2Proof/Decode.lean ====
section
/-! DEFINITION. The decoder, total on every word and every byte list, and after it the encoder (30_encoding.md R50 to R65, 46_io.md R121). -/

namespace Sys2Proof

/-- Why bytes are no instruction. -/
inductive DecodeError where
  /-- a `bCC` word with cc in 10..15: the invalid instruction exception (R59) -/
  | invalidInstruction (w : Word)
  /-- a word of the $F group that the source does not show (R60) -/
  | notShown (w : Word)
  /-- fewer than two bytes: no instruction is shorter than one word (R50) -/
  | truncated
  deriving DecidableEq, Repr

/-- The $F group, by `sub` (R57); `in` where the configuration supplies its sub-opcode (R60, R121). -/
def decodeGroupF (cfg : Config) (w : Word) : Except DecodeError Instr :=
  match (subField w).toNat with
  | 0 => .ok (.mov (aField w) (dField w))
  | 1 => .ok (.neg (aField w) (dField w))
  | 2 => .ok (.not (aField w) (dField w))
  | 3 => .ok (.cmp (aField w) (dField w))
  | 4 => .ok (.call (aField w) (dField w))
  | 5 => .ok (.swap (aField w) (dField w))
  | _ => if cfg.inSubop = some (subField w) then .ok (.inPort (aField w) (dField w)) else .error (.notShown w)

/-- `bCC`, or the invalid instruction (R59, R105). -/
def decodeBranch (w : Word) : Except DecodeError Instr :=
  if (ccField w).toNat ≤ 9 then .ok (.bcc (ccField w) (immField w)) else .error (.invalidInstruction w)

/-- The instruction of a word, by `op` (R56, R61). -/
def decode (cfg : Config) (w : Word) : Except DecodeError Instr :=
  match (opField w).toNat with
  | 0x0 => .ok (.ldim (immField w) (dField w))
  | 0x1 => .ok (.ldimh (immField w) (dField w))
  | 0x2 => .ok (.ld8 (aField w) (bField w) (dField w))
  | 0x3 => .ok (.ld16 (aField w) (bField w) (dField w))
  | 0x4 => .ok (.str8 (aField w) (bField w) (dField w))
  | 0x5 => .ok (.str16 (aField w) (bField w) (dField w))
  | 0x6 => .ok (.add (aField w) (bField w) (dField w))
  | 0x7 => .ok (.adc (aField w) (bField w) (dField w))
  | 0x8 => .ok (.and (aField w) (bField w) (dField w))
  | 0x9 => .ok (.or (aField w) (bField w) (dField w))
  | 0xA => .ok (.xor (aField w) (bField w) (dField w))
  | 0xB => .ok (.lsl (aField w) (bField w) (dField w))
  | 0xC => .ok (.lsr (aField w) (bField w) (dField w))
  | 0xD => .ok (.asr (aField w) (bField w) (dField w))
  | 0xE => decodeBranch w
  | _ => decodeGroupF cfg w

/-- The instruction at the head of a byte list, and the bytes after it; the two bytes lie as `ENDIAN` says (R34, R50). -/
def decodeBytes (cfg : Config) : List Byte → Except DecodeError (Instr × List Byte)
  | first :: second :: rest =>
    match decode cfg (wordOfBytes cfg.endian first second) with
    | .ok i => .ok (i, rest)
    | .error e => .error e
  | _ => .error .truncated

/-- The host's question: what the decoder reads from an instruction of `nbits` bits `w`, laid out in the byte order of
the launch, under the configuration of the launch.  Every instruction is one 16-bit word (R50). -/
def decodeTableWord (nbits w : Nat) : Option Instr :=
  let v : Word := BitVec.ofNat 16 (w % 2 ^ nbits)
  let e := Config.launch.endian
  match decodeBytes Config.launch [firstByte e v, secondByte e v] with
  | .ok (i, _) => some i
  | .error _ => none

/-- `I8(op, D, IM)` (R52, R65). -/
def encodeI8 (op : BitVec 4) (d : RegNum) (imm8 : Byte) : Word := (BitVec.ofFin d : BitVec 4) ++ imm8 ++ op

/-- `R3(op, D, A, B)` (R53, R65). -/
def encodeR3 (op : BitVec 4) (d a b : RegNum) : Word :=
  (BitVec.ofFin d : BitVec 4) ++ (BitVec.ofFin a : BitVec 4) ++ (BitVec.ofFin b : BitVec 4) ++ op

/-- `B(cc, off8)` (R54, R65). -/
def encodeB (cc : BitVec 4) (imm8 : Byte) : Word := cc ++ imm8 ++ 0xE#4

/-- `R2(sub, D, A)` (R55, R65). -/
def encodeR2 (sub : BitVec 4) (d a : RegNum) : Word :=
  (BitVec.ofFin d : BitVec 4) ++ (BitVec.ofFin a : BitVec 4) ++ sub ++ 0xF#4

/-- The word of an instruction; `none` only for `in` when `IN_SUBOP` is not supplied (R121). -/
def encode (cfg : Config) : Instr → Option Word
  | .ldim imm8 d => some (encodeI8 0x0 d imm8)
  | .ldimh imm8 d => some (encodeI8 0x1 d imm8)
  | .ld8 a b d => some (encodeR3 0x2 d a b)
  | .ld16 a b d => some (encodeR3 0x3 d a b)
  | .str8 a b d => some (encodeR3 0x4 d a b)
  | .str16 a b d => some (encodeR3 0x5 d a b)
  | .add a b d => some (encodeR3 0x6 d a b)
  | .adc a b d => some (encodeR3 0x7 d a b)
  | .and a b d => some (encodeR3 0x8 d a b)
  | .or a b d => some (encodeR3 0x9 d a b)
  | .xor a b d => some (encodeR3 0xA d a b)
  | .lsl a b d => some (encodeR3 0xB d a b)
  | .lsr a b d => some (encodeR3 0xC d a b)
  | .asr a b d => some (encodeR3 0xD d a b)
  | .bcc cc imm8 => some (encodeB cc imm8)
  | .mov a d => some (encodeR2 0x0 d a)
  | .neg a d => some (encodeR2 0x1 d a)
  | .not a d => some (encodeR2 0x2 d a)
  | .cmp a d => some (encodeR2 0x3 d a)
  | .call a d => some (encodeR2 0x4 d a)
  | .swap a d => some (encodeR2 0x5 d a)
  | .inPort a d => cfg.inSubop.map fun sub => encodeR2 sub d a

/-- The assembler's `imm8` for `bCC LABEL` at address A (R63): legal when LABEL is even and the offset in instructions is
-128 to 127.  DESIGN CHOICE (log 26): where `LABEL - A - BRANCH_BIAS` is odd, of which R63 says nothing, the half is
rounded down and an `imm8` is answered.  DESIGN CHOICE (log 27): the difference is of plain integers and does not wrap, so
a label that a branch reaches only past $FFFF or below $0000 gets no `imm8`. -/
def branchImm8 (cfg : Config) (addr label : Word) : Option Byte :=
  let off : Int := ((label.toNat : Int) - addr.toNat - cfg.branchBias.toNat) / 2
  if isOdd label = false ∧ -128 ≤ off ∧ off ≤ 127 then some (BitVec.ofInt 8 off) else none

end Sys2Proof
end

