-- ==== Sys2Proof/Machine/Operands.lean ====
section
/-! DEFINITION. Register operands (10_state.md R19, R20): which register fields are refused, what a register number reads as, and what writing it does. -/

namespace Sys2Proof.Machine

/-- The refusal of an instruction's register fields, if any (R19), in the order of R136: `named` are all its fields,
`guarded` those that may name PC only when `ADMIT_PC_OPERANDS`, `never` those that may not name PC at all. -/
def operandRefusal (cfg : Config) (w : Option Word) (named guarded never : List RegNum) : Option Refusal :=
  if named.any (fun r => cfg.reservedRegs.contains r) then some (.reservedReg w)
  else if never.contains cfg.pcRegnum then some (.pcOperand w)
  else if !cfg.admitPcOperands && guarded.contains cfg.pcRegnum then some (.pcOperand w)
  else none

/-- Go on with `k` unless a register field is refused. -/
def withFields (i : Instr) (named guarded never : List RegNum) (s : State) (k : Result) : Result :=
  match operandRefusal s.cfg (encode s.cfg i) named guarded never with
  | some r => .refused r
  | none => k

/-- Go on with `k` when every register field of `i` may be used: the rule of every instruction but `mov` and `call`. -/
def withOperands (i : Instr) (fields : List RegNum) (s : State) (k : Result) : Result :=
  withFields i fields fields [] s k

/-- `x[i]` at the instruction at `s.pc` (R19): PC shows the instruction's address plus `PC_READ_BIAS`. -/
def readReg (s : State) (r : RegNum) : Word :=
  if r = s.cfg.pcRegnum then s.pc + s.cfg.pcReadBias else s.regs[r]

/-- `x[i] <- v` (R19): a write to PC sets pc to the value itself. -/
def writeReg (s : State) (r : RegNum) (v : Word) : State :=
  if r = s.cfg.pcRegnum then s.setPc v else s.setReg r v

/-- The effective address of the four memory instructions (20_memory.md R31). -/
def effectiveAddress (s : State) (a b : RegNum) : Word := readReg s a + readReg s b

end Sys2Proof.Machine
end

