-- ==== Sys2Proof/Machine/Ops.lean ====
section
/-! DEFINITION. The named operations over the state: memory access and its checks, the pc, writing a result, the invalid instruction exception, fetch, and the end of a run. -/

namespace Sys2Proof.Machine

/-- The default `pc <- (A + 2) mod 2^16` (10_state.md R14). -/
def advance (s : State) : State := s.setPc (s.pc + 2)

/-- The instruction writes `v` to rD, the flags become `f`, and pc advances unless rD is PC (R14, R19). -/
def writeResult (s : State) (d : RegNum) (v : Word) (f : Flags) : State :=
  writeReg ((advance s).setFlags f) d v

/-- The invalid instruction exception, taken at the instruction's address.  The source describes no entry, so the step ends
the run there and nothing of the instruction takes effect (60_exceptions.md R131, R133; 44_branch.md R107). -/
def raiseInvalidInstruction (w : Word) (s : State) : Result := .fault (.invalidInstruction w s.pc)

/-- Whether a region admits an access to a byte. -/
def regionAdmits (r : Region) (addr : Word) (kind : AccessKind) : Bool :=
  decide (r.base ≤ addr.toNat) && decide (addr.toNat < r.base + r.size) &&
    match kind with
    | .read => r.read
    | .write => r.write
    | .fetch => r.fetch

/-- `MEM_ADMIT(addr, kind)` (20_memory.md R38). -/
def admitted (cfg : Config) (addr : Word) (kind : AccessKind) : Bool :=
  cfg.memAdmit.any fun r => regionAdmits r addr kind

/-- The fault of an access to a byte that is not admitted (R38). -/
def byteFault (cfg : Config) (addr : Word) (kind : AccessKind) : Option Fault :=
  if admitted cfg addr kind then none else some (.accessNotAdmitted addr kind)

/-- A 2-byte access needs both bytes admitted; the fault names the first that is not (R38; log 11). -/
def wordFault (cfg : Config) (addr : Word) (kind : AccessKind) : Option Fault :=
  (byteFault cfg addr kind).or (byteFault cfg (addr + 1) kind)

/-- The fault of `ld16` and `str16` at an odd address (R35). -/
def alignmentFault (ea : Word) : Option Fault := if isOdd ea then some (.misalignedData ea) else none

/-- Whether `addr` is `(A + k) mod 2^16` for some `2 ≤ k < BRANCH_BIAS + 2`: the prefetch window of the instruction at A
(R43).  The last disjunct is the one k past 2^16 - 1 that a bias of $FFFF reaches. -/
def inPrefetchWindow (cfg : Config) (pc addr : Word) : Bool :=
  let k := (addr - pc).toNat
  let limit := cfg.branchBias.toNat + 2
  (decide (2 ≤ k) && decide (k < limit)) || decide (k + 65536 < limit)

/-- The fault of a store of `n` bytes at `ea` that touches the prefetch window (R43). -/
def windowFault (s : State) (ea : Word) (n : Nat) : Option Fault :=
  if (List.range n).any (fun k => inPrefetchWindow s.cfg s.pc (ea + BitVec.ofNat 16 k)) then
    some (.prefetchWindowStore ea)
  else none

/-- Why `ld8` at `ea` faults, if it does (41_load_store.md R75). -/
def loadByteFault (s : State) (ea : Word) : Option Fault := byteFault s.cfg ea .read

/-- Why `ld16` at `ea` faults, if it does, in the order of R136 (R76). -/
def loadWordFault (s : State) (ea : Word) : Option Fault := (alignmentFault ea).or (wordFault s.cfg ea .read)

/-- Why `str8` at `ea` faults, if it does, in the order of R136 (R77). -/
def storeByteFault (s : State) (ea : Word) : Option Fault := (windowFault s ea 1).or (byteFault s.cfg ea .write)

/-- Why `str16` at `ea` faults, if it does, in the order of R136 (R78). -/
def storeWordFault (s : State) (ea : Word) : Option Fault :=
  ((alignmentFault ea).or (windowFault s ea 2)).or (wordFault s.cfg ea .write)

/-- Go on with `k` unless the access faults; a step that faults changes nothing (R136). -/
def withAccess (f : Option Fault) (k : Result) : Result :=
  match f with
  | some f => .fault f
  | none => k

/-- `MemRead(addr, 1)` (20_memory.md R34). -/
def readByte (s : State) (addr : Word) : Byte := Memory.read s.mem addr.toNat

/-- `MemRead(addr, 2)` (R34). -/
def readWord (s : State) (addr : Word) : Word :=
  wordOfBytes s.cfg.endian (readByte s addr) (readByte s (addr + 1))

/-- `MemWrite(addr, 1, v)` (R34). -/
def writeByte (s : State) (addr : Word) (v : Byte) : State := s.setMem (Memory.write s.mem addr.toNat v)

/-- `MemWrite(addr, 2, v)` (R34). -/
def writeWord (s : State) (addr v : Word) : State :=
  writeByte (writeByte s addr (firstByte s.cfg.endian v)) (addr + 1) (secondByte s.cfg.endian v)

/-- What `ld8` leaves in rD, and how many free values it drew (41_load_store.md R75). -/
def extendLoaded (s : State) (old : Word) (v : Byte) : Word × Nat :=
  match s.cfg.ld8Ext with
  | .zero => (joinBytes 0 v, 0)
  | .sign => (signExtend8 v, 0)
  | .keep => (joinBytes (highByte old) v, 0)
  | .draw => (joinBytes (Config.freeByte s.draws) v, 1)

/-- Where a taken `bCC` at A goes: `(A + BRANCH_BIAS + 2 * signed8(imm8)) mod 2^16` (44_branch.md R105). -/
def branchTarget (cfg : Config) (pc : Word) (imm8 : Byte) : Word :=
  BitVec.ofInt 16 ((pc.toNat : Int) + cfg.branchBias.toNat + 2 * imm8.toInt)

/-- The instruction word at pc, or why fetching it faults: alignment, then admission (R36, R38, R43, R136). -/
def fetchWord (s : State) : Except Fault Word :=
  if isOdd s.pc then .error (.misalignedFetch s.pc)
  else
    match wordFault s.cfg s.pc .fetch with
    | some f => .error f
    | none => .ok (readWord s s.pc)

/-- The run is over and the state final: pc is `HALT_ADDR` and no mark is set (70_reset_and_hazards.md R152). -/
def isFinal (s : State) : Bool := s.mark.isNone && decide (s.cfg.haltAddr = some s.pc)

/-- What a step answers in a marked state: the mark is kept for the rest of the run (00_scope.md R6). -/
def markedOutcome : Mark → Result
  | .faulted f => .fault f
  | .refused r => .refused r

/-- What a step answers for a word that is no instruction (30_encoding.md R59, R60); `truncated` cannot come from a word. -/
def decodeFailure (s : State) (w : Word) : DecodeError → Result
  | .invalidInstruction v => raiseInvalidInstruction v s
  | .notShown v => .refused (.notShown v)
  | .truncated => .refused (.notShown w)

end Sys2Proof.Machine
end

