-- ==== Sys2Proof/Machine/ArithLogic.lean ====
section
/-! DEFINITION. `add`, `adc`, `and`, `or`, `xor` (42_arithmetic_logic.md). -/

namespace Sys2Proof.Machine

/-- rA + rB + carry in to rD, with C the carry out of bit 15 (R85, R86). -/
def addInto (a b d : RegNum) (carryIn : Bool) (s : State) : State :=
  let sum := exactSum (readReg s a) (readReg s b) carryIn
  writeResult s d (sumResult sum) (flagsOf (sumCarry sum) (sumResult sum))

/-- A bitwise result to rD: N and Z follow it, C is unmodified (R87, R88, R89, R112). -/
def logicInto (d : RegNum) (r : Word) (s : State) : State := writeResult s d r (setNZ s.flags r)

/-- R85. -/
def execAdd (a b d : RegNum) (s : State) : Result :=
  withOperands (.add a b d) [a, b, d] s (.next (addInto a b d false s))

/-- R86. -/
def execAdc (a b d : RegNum) (s : State) : Result :=
  withOperands (.adc a b d) [a, b, d] s (.next (addInto a b d s.flags.c s))

/-- R87. -/
def execAnd (a b d : RegNum) (s : State) : Result :=
  withOperands (.and a b d) [a, b, d] s (.next (logicInto d (readReg s a &&& readReg s b) s))

/-- R88. -/
def execOr (a b d : RegNum) (s : State) : Result :=
  withOperands (.or a b d) [a, b, d] s (.next (logicInto d (readReg s a ||| readReg s b) s))

/-- R89. -/
def execXor (a b d : RegNum) (s : State) : Result :=
  withOperands (.xor a b d) [a, b, d] s (.next (logicInto d (readReg s a ^^^ readReg s b) s))

end Sys2Proof.Machine
end

