-- ==== Sys2Proof/Machine/Branch.lean ====
section
/-! DEFINITION. `bCC` (44_branch.md). -/

namespace Sys2Proof.Machine

/-- R105: a condition number above 9 raises the invalid instruction exception (R107). -/
def execBcc (cc : BitVec 4) (imm8 : Byte) (s : State) : Result :=
  if 9 < cc.toNat then raiseInvalidInstruction (encodeB cc imm8) s
  else .next (if condHolds s.cfg cc s.flags then s.setPc (branchTarget s.cfg s.pc imm8) else advance s)

end Sys2Proof.Machine
end

