-- ==== Sys2Proof/Machine/Io.lean ====
section
/-! DEFINITION. `in` (46_io.md). -/

namespace Sys2Proof.Machine

/-- R120: the oracle sees the history before this read (20_memory.md R32); the choice and the drawn flags are fresh
free values (R122). -/
def execInPort (a d : RegNum) (s : State) : Result :=
  withOperands (.inPort a d) [a, d] s
    (let port := readReg s a
     let flags := inFlags s s.draws
     .next (((writeResult s d (Config.portRead s.portHistory port s.draws) flags.1).logPortRead port).drew (1 + flags.2)))

end Sys2Proof.Machine
end

