-- ==== Sys2Proof/Machine/LoadImmediate.lean ====
section
/-! DEFINITION. `ldim` and `ldimh` (40_load_immediate.md). -/

namespace Sys2Proof.Machine

/-- R70: `x[d] <- sext_16(imm8)`. -/
def execLdim (imm8 : Byte) (d : RegNum) (s : State) : Result :=
  withOperands (.ldim imm8 d) [d] s (.next (writeResult s d (signExtend8 imm8) s.flags))

/-- R71: `x[d] <- {imm8, x[d][7:0]}`. -/
def execLdimh (imm8 : Byte) (d : RegNum) (s : State) : Result :=
  withOperands (.ldimh imm8 d) [d] s (.next (writeResult s d (joinBytes imm8 (lowByte (readReg s d))) s.flags))

end Sys2Proof.Machine
end

