-- ==== Sys2Proof/Machine/LoadStore.lean ====
section
/-! DEFINITION. `ld8`, `ld16`, `str8`, `str16` (41_load_store.md). -/

namespace Sys2Proof.Machine

/-- R75. -/
def execLd8 (a b d : RegNum) (s : State) : Result :=
  withOperands (.ld8 a b d) [a, b, d] s
    (let ea := effectiveAddress s a b
     withAccess (loadByteFault s ea)
      (let loaded := extendLoaded s (readReg s d) (readByte s ea)
       .next ((writeResult s d loaded.1 s.flags).drew loaded.2)))

/-- R76. -/
def execLd16 (a b d : RegNum) (s : State) : Result :=
  withOperands (.ld16 a b d) [a, b, d] s
    (let ea := effectiveAddress s a b
     withAccess (loadWordFault s ea) (.next (writeResult s d (readWord s ea) s.flags)))

/-- R77: the low byte of rD is stored. -/
def execStr8 (a b d : RegNum) (s : State) : Result :=
  withOperands (.str8 a b d) [a, b, d] s
    (let ea := effectiveAddress s a b
     withAccess (storeByteFault s ea) (.next (advance (writeByte s ea (lowByte (readReg s d))))))

/-- R78. -/
def execStr16 (a b d : RegNum) (s : State) : Result :=
  withOperands (.str16 a b d) [a, b, d] s
    (let ea := effectiveAddress s a b
     withAccess (storeWordFault s ea) (.next (advance (writeWord s ea (readReg s d)))))

end Sys2Proof.Machine
end

