-- ==== Sys2Proof/Machine/Shift.lean ====
section
/-! DEFINITION. `lsl`, `lsr`, `asr` (43_shift.md). -/

namespace Sys2Proof.Machine

/-- rA shifted by rB to rD; N and Z follow the result, also where it is a free value (R95 to R99). -/
def shiftInto (kind : ShiftKind) (a b d : RegNum) (s : State) : State :=
  let out := shift s kind (readReg s a) (readReg s b)
  (writeResult s d out.result (flagsOf out.carry out.result)).drew out.drawn

/-- R96. -/
def execLsl (a b d : RegNum) (s : State) : Result :=
  withOperands (.lsl a b d) [a, b, d] s (.next (shiftInto .lsl a b d s))

/-- R97. -/
def execLsr (a b d : RegNum) (s : State) : Result :=
  withOperands (.lsr a b d) [a, b, d] s (.next (shiftInto .lsr a b d s))

/-- R98. -/
def execAsr (a b d : RegNum) (s : State) : Result :=
  withOperands (.asr a b d) [a, b, d] s (.next (shiftInto .asr a b d s))

end Sys2Proof.Machine
end

