-- ==== Sys2Proof/Machine/TwoOperand.lean ====
section
/-! DEFINITION. `mov`, `neg`, `not`, `cmp`, `call`, `swap` (45_two_operand.md). -/

namespace Sys2Proof.Machine

/-- R110: rD may name PC whatever `ADMIT_PC_OPERANDS` is (10_state.md R19). -/
def execMov (a d : RegNum) (s : State) : Result :=
  withFields (.mov a d) [a, d] [a] [] s (.next (writeResult s d (readReg s a) s.flags))

/-- R111. -/
def execNeg (a d : RegNum) (s : State) : Result :=
  withOperands (.neg a d) [a, d] s
    (let r := difference 0 (readReg s a)
     let carry := subtractionCarry s 0 (readReg s a)
     .next ((writeResult s d r (flagsOf carry.1 r)).drew carry.2))

/-- R112. -/
def execNot (a d : RegNum) (s : State) : Result :=
  withOperands (.not a d) [a, d] s
    (let r := ~~~(readReg s a)
     .next (writeResult s d r (setNZ s.flags r)))

/-- R113: rD - rA is discarded. -/
def execCmp (a d : RegNum) (s : State) : Result :=
  withOperands (.cmp a d) [a, d] s
    (let r := difference (readReg s d) (readReg s a)
     let carry := subtractionCarry s (readReg s d) (readReg s a)
     .next (((advance s).setFlags (flagsOf carry.1 r)).drew carry.2))

/-- R114: rD may never name PC; the target is read before the link is written. -/
def execCall (a d : RegNum) (s : State) : Result :=
  withFields (.call a d) [a, d] [a, d] [d] s
    (.next ((s.setReg d (s.pc + 2)).setPc (readReg s a)))

/-- R115: both fields are read before either is written. -/
def execSwap (a d : RegNum) (s : State) : Result :=
  withOperands (.swap a d) [a, d] s
    (.next (writeReg (writeReg (advance s) a (readReg s d)) d (readReg s a)))

end Sys2Proof.Machine
end

