-- ==== Sys2Proof/Machine/Dispatch.lean ====
section
/-! DEFINITION. One arm per instruction. -/

namespace Sys2Proof.Machine

def exec (i : Instr) (s : State) : Host.Outcome State Fault Refusal :=
  match i with
  | .ldim imm8 d => Sys2Proof.Machine.execLdim imm8 d s
  | .ldimh imm8 d => Sys2Proof.Machine.execLdimh imm8 d s
  | .ld8 a b d => Sys2Proof.Machine.execLd8 a b d s
  | .ld16 a b d => Sys2Proof.Machine.execLd16 a b d s
  | .str8 a b d => Sys2Proof.Machine.execStr8 a b d s
  | .str16 a b d => Sys2Proof.Machine.execStr16 a b d s
  | .add a b d => Sys2Proof.Machine.execAdd a b d s
  | .adc a b d => Sys2Proof.Machine.execAdc a b d s
  | .and a b d => Sys2Proof.Machine.execAnd a b d s
  | .or a b d => Sys2Proof.Machine.execOr a b d s
  | .xor a b d => Sys2Proof.Machine.execXor a b d s
  | .lsl a b d => Sys2Proof.Machine.execLsl a b d s
  | .lsr a b d => Sys2Proof.Machine.execLsr a b d s
  | .asr a b d => Sys2Proof.Machine.execAsr a b d s
  | .bcc cc imm8 => Sys2Proof.Machine.execBcc cc imm8 s
  | .mov a d => Sys2Proof.Machine.execMov a d s
  | .neg a d => Sys2Proof.Machine.execNeg a d s
  | .not a d => Sys2Proof.Machine.execNot a d s
  | .cmp a d => Sys2Proof.Machine.execCmp a d s
  | .call a d => Sys2Proof.Machine.execCall a d s
  | .swap a d => Sys2Proof.Machine.execSwap a d s
  | .inPort a d => Sys2Proof.Machine.execInPort a d s

end Sys2Proof.Machine
end

