-- ==== Sys2Proof/Machine/Step.lean ====
section
/-! DEFINITION. One step (00_scope.md R6, 60_exceptions.md R136), and where the host places an instruction to run next. -/

namespace Sys2Proof.Machine

/-- A marked state keeps its outcome (R6); at the end of the run nothing is fetched and the state stays (R152); otherwise
fetch, decode, execute. -/
def step (s : State) : Host.Outcome State Fault Refusal :=
  match s.mark with
  | some m => markedOutcome m
  | none =>
    if isFinal s then .next s
    else
      match fetchWord s with
      | .error f => .fault f
      | .ok w =>
        match decode s.cfg w with
        | .ok i => exec i s
        | .error e => decodeFailure s w e

/-- `s` with the word `w` of `nbits` bits stored at pc, in the byte order of its configuration. -/
def State.withFetchWord (s : State) (nbits w : Nat) : State :=
  writeWord s s.pc (BitVec.ofNat 16 (w % 2 ^ nbits))

end Sys2Proof.Machine
end

