-- ==== Sys2Proof/Safety.lean ====
section
/-! DEFINITION. The terms that claims use: which operands may be used (10_state.md R19), the prefetch window (20_memory.md R43), what an instruction leaves unchanged, runs with their sticky marks and their end (00_scope.md R6, 70_reset_and_hazards.md R152), and the invariant of the states. -/

namespace Sys2Proof.Safety

open Sys2Proof.Machine

/-- These register fields may be used by an instruction other than `mov` and `call` (R19): none is reserved, and none
names PC unless `ADMIT_PC_OPERANDS`. -/
abbrev OperandsOk (cfg : Config) (fields : List RegNum) : Prop :=
  (∀ r ∈ fields, r ∉ cfg.reservedRegs) ∧ (cfg.admitPcOperands = true ∨ ∀ r ∈ fields, r ≠ cfg.pcRegnum)

/-- The fields of `mov`: rD may name PC (R19, R110). -/
abbrev MovOperandsOk (cfg : Config) (a d : RegNum) : Prop :=
  (a ∉ cfg.reservedRegs ∧ d ∉ cfg.reservedRegs) ∧ (cfg.admitPcOperands = true ∨ a ≠ cfg.pcRegnum)

/-- The fields of `call`: rD may not name PC at all (R114). -/
abbrev CallOperandsOk (cfg : Config) (a d : RegNum) : Prop :=
  (a ∉ cfg.reservedRegs ∧ d ∉ cfg.reservedRegs) ∧ d ≠ cfg.pcRegnum ∧
    (cfg.admitPcOperands = true ∨ a ≠ cfg.pcRegnum)

/-- `addr` lies in the prefetch window of the instruction at `pc` (R43). -/
def InWindow (cfg : Config) (pc addr : Word) : Prop :=
  ∃ k : Nat, 2 ≤ k ∧ k < cfg.branchBias.toNat + 2 ∧ addr = pc + BitVec.ofNat 16 k

/-- Both bytes of the word at `addr` are admitted (R38). -/
abbrev WordAdmitted (cfg : Config) (addr : Word) (kind : AccessKind) : Prop :=
  admitted cfg addr kind = true ∧ admitted cfg (addr + 1) kind = true

/-- Every byte of memory reads as before. -/
def SameMemory (s t : State) : Prop := ∀ addr : Nat, Memory.read t.mem addr = Memory.read s.mem addr

/-- The port history, the outcome mark and the configuration are as before. -/
def SameRest (s t : State) : Prop := t.portHistory = s.portHistory ∧ t.mark = s.mark ∧ t.cfg = s.cfg

/-- The instruction at `s.pc` wrote `v` to register number `d` and to no other (R14, R19): where `d` names PC, pc is `v`
and no register changed; anywhere else the register is written and pc advanced. -/
def WroteReg (s t : State) (d : RegNum) (v : Word) : Prop :=
  (d = s.cfg.pcRegnum → t.pc = v ∧ ∀ r : RegNum, t.regs[r] = s.regs[r]) ∧
  (d ≠ s.cfg.pcRegnum → t.pc = s.pc + 2 ∧ t.regs[d] = v ∧ ∀ r : RegNum, r ≠ d → t.regs[r] = s.regs[r])

/-- The register `d`, which is not PC, was written `v` and no other register was written. -/
def WroteDest (s t : State) (d : RegNum) (v : Word) : Prop :=
  t.regs[d] = v ∧ ∀ r : RegNum, r ≠ d → t.regs[r] = s.regs[r]

/-- No register was written and pc advanced (R14). -/
def WroteNoReg (s t : State) : Prop := t.pc = s.pc + 2 ∧ ∀ r : RegNum, t.regs[r] = s.regs[r]

/-- N and Z follow the result `v` (10_state.md R17). -/
def NZFollow (t : State) (v : Word) : Prop :=
  t.flags.n = decide (32768 ≤ v.toNat) ∧ t.flags.z = decide (v.toNat = 0)

/-- One step of a run: a fault or a refusal leaves the state as it was and sets the sticky mark (R6, R133). -/
def advanceRun (s : State) : State :=
  match step s with
  | .next t => t
  | .fault f => s.setMark (.faulted f)
  | .refused r => s.setMark (.refused r)

/-- The state after `k` steps of the run from `s`. -/
def runFor : Nat → State → State
  | 0, s => s
  | k + 1, s => runFor k (advanceRun s)

/-- The run from `s` ends, and its final state satisfies `Q` (R152). -/
def EndsWith (s : State) (Q : State → Prop) : Prop := ∃ k, isFinal (runFor k s) = true ∧ Q (runFor k s)

/-- What holds of every state of a run: memory is in canonical form and the configuration is one that the spec allows. -/
abbrev Inv (s : State) : Prop := Memory.wf s.mem = true ∧ s.cfg.wf = true

end Sys2Proof.Safety
end

