-- ==== Sys2Proof/Certificates/Slice0/Obligations.lean ====
section
/-! DEFINITION. The statements for the provers, one `def Obligations.<Name> : Prop` each, and the few terms that only they use. -/

open Sys2Proof Sys2Proof.Machine Sys2Proof.Safety

namespace Sys2Proof.Claims

/-- Memory, port history, mark, configuration and the count of draws are as before. -/
def OnlyRegsAndFlags (s t : State) : Prop := SameMemory s t ∧ SameRest s t ∧ t.draws = s.draws

/-- The instruction of a kind of shift. -/
def shiftInstr : ShiftKind → RegNum → RegNum → RegNum → Instr
  | .lsl, a, b, d => .lsl a b d
  | .lsr, a, b, d => .lsr a b d
  | .asr, a, b, d => .asr a b d

/-- The register fields of an instruction. -/
def fieldsOf : Instr → List RegNum
  | .ldim _ d | .ldimh _ d => [d]
  | .ld8 a b d | .ld16 a b d | .str8 a b d | .str16 a b d => [a, b, d]
  | .add a b d | .adc a b d | .and a b d | .or a b d | .xor a b d => [a, b, d]
  | .lsl a b d | .lsr a b d | .asr a b d => [a, b, d]
  | .bcc _ _ => []
  | .mov a d | .neg a d | .not a d | .cmp a d | .call a d | .swap a d | .inPort a d => [a, d]

/-- The register fields that may name PC only when `ADMIT_PC_OPERANDS`: all but rD of `mov` (R19). -/
def guardedOf : Instr → List RegNum
  | .mov a _ => [a]
  | i => fieldsOf i

/-- The register numbers an instruction writes. -/
def destsOf : Instr → List RegNum
  | .ldim _ d | .ldimh _ d | .ld8 _ _ d | .ld16 _ _ d => [d]
  | .str8 _ _ _ | .str16 _ _ _ | .bcc _ _ | .cmp _ _ => []
  | .add _ _ d | .adc _ _ d | .and _ _ d | .or _ _ d | .xor _ _ d => [d]
  | .lsl _ _ d | .lsr _ _ d | .asr _ _ d => [d]
  | .mov _ d | .neg _ d | .not _ d | .call _ d | .inPort _ d => [d]
  | .swap a d => [a, d]

/-- The same instruction with another destination, where it writes the one destination rD. -/
def retarget : Instr → RegNum → Instr
  | .ldim imm8 _, q => .ldim imm8 q
  | .ldimh imm8 _, q => .ldimh imm8 q
  | .ld8 a b _, q => .ld8 a b q
  | .ld16 a b _, q => .ld16 a b q
  | .add a b _, q => .add a b q
  | .adc a b _, q => .adc a b q
  | .and a b _, q => .and a b q
  | .or a b _, q => .or a b q
  | .xor a b _, q => .xor a b q
  | .lsl a b _, q => .lsl a b q
  | .lsr a b _, q => .lsr a b q
  | .asr a b _, q => .asr a b q
  | .mov a _, q => .mov a q
  | .neg a _, q => .neg a q
  | .not a _, q => .not a q
  | .inPort a _, q => .inPort a q
  | .str8 a b d, _ => .str8 a b d
  | .str16 a b d, _ => .str16 a b d
  | .bcc cc imm8, _ => .bcc cc imm8
  | .cmp a d, _ => .cmp a d
  | .call a d, _ => .call a d
  | .swap a d, _ => .swap a d

/-- The instruction reads its own destination: `ldimh`, and `ld8` under `LD8_EXT = keep` (R71, R75). -/
def readsDest (cfg : Config) : Instr → Bool
  | .ldimh _ _ => true
  | .ld8 _ _ _ => decide (cfg.ld8Ext = .keep)
  | _ => false

/-- The instructions whose Flags paragraph is "No change" (R17). -/
def keepsFlags : Instr → Bool
  | .ldim _ _ | .ldimh _ _ | .ld8 _ _ _ | .ld16 _ _ _ | .str8 _ _ _ | .str16 _ _ _ => true
  | .bcc _ _ | .mov _ _ | .call _ _ | .swap _ _ => true
  | .add _ _ _ | .adc _ _ _ | .and _ _ _ | .or _ _ _ | .xor _ _ _ => false
  | .lsl _ _ _ | .lsr _ _ _ | .asr _ _ _ | .neg _ _ | .not _ _ | .cmp _ _ | .inPort _ _ => false

/-- The instructions that leave C unmodified and set N and Z (R17). -/
def keepsCarry : Instr → Bool
  | .and _ _ _ | .or _ _ _ | .xor _ _ _ | .not _ _ => true
  | .ldim _ _ | .ldimh _ _ | .ld8 _ _ _ | .ld16 _ _ _ | .str8 _ _ _ | .str16 _ _ _ => false
  | .bcc _ _ | .mov _ _ | .call _ _ | .swap _ _ => false
  | .add _ _ _ | .adc _ _ _ | .lsl _ _ _ | .lsr _ _ _ | .asr _ _ _ => false
  | .neg _ _ | .cmp _ _ | .inPort _ _ => false

/-- No parameter of the configuration is a draw (R3). -/
def NoDraw (cfg : Config) : Prop :=
  cfg.ld8Ext ≠ .draw ∧ cfg.subCarry ≠ .draw ∧ cfg.shiftEdge ≠ .draw ∧ cfg.inFlags ≠ .draw

/-- The state starts a step that fetches: no mark is set and the run is not over. -/
def Running (s : State) : Prop := s.mark = none ∧ s.cfg.haltAddr ≠ some s.pc

/-- The word at pc can be fetched: pc is even and both bytes are admitted. -/
def Fetchable (s : State) : Prop := s.pc.toNat % 2 = 0 ∧ WordAdmitted s.cfg s.pc .fetch

end Sys2Proof.Claims

open Sys2Proof.Claims

/-! ## Encoding -/

/-- Decoding an encoded well-formed instruction gives it back, every operand at every value (30_encoding.md R52 to R57,
R61; `in` where `IN_SUBOP` is supplied: 46_io.md R121, the spec's decision D22). -/
def Obligations.DecodeOfEncode : Prop :=
  ∀ (cfg : Config) (i : Instr) (w : Word),
    cfg.inSubopOk = true → i.wf = true → encode cfg i = some w → decode cfg w = .ok i

/-- A word that decodes is the word of the instruction it decodes to, and that instruction is well-formed (R61; `in` by
R121, D22). -/
def Obligations.EncodeOfDecode : Prop :=
  ∀ (cfg : Config) (w : Word) (i : Instr), decode cfg w = .ok i → encode cfg i = some w ∧ i.wf = true

/-- R65: the four encoding functions and its five examples. -/
def Obligations.EncodingFunctions : Prop :=
  (∀ (op : BitVec 4) (d : RegNum) (imm8 : Byte),
    (encodeI8 op d imm8).toNat = (d.val <<< 12) ||| ((imm8.toNat &&& 0xFF) <<< 4) ||| op.toNat) ∧
  (∀ (op : BitVec 4) (d a b : RegNum),
    (encodeR3 op d a b).toNat = (d.val <<< 12) ||| (a.val <<< 8) ||| (b.val <<< 4) ||| op.toNat) ∧
  (∀ (cc : BitVec 4) (off8 : Byte),
    (encodeB cc off8).toNat = (cc.toNat <<< 12) ||| ((off8.toNat &&& 0xFF) <<< 4) ||| 0xE) ∧
  (∀ (sub : BitVec 4) (d a : RegNum),
    (encodeR2 sub d a).toNat = (d.val <<< 12) ||| (a.val <<< 8) ||| (sub.toNat <<< 4) ||| 0xF) ∧
  (∀ cfg : Config, encode cfg (.ldim 0x7F 0) = some 0x07F0 ∧ encode cfg (.ldimh 0x12 4) = some 0x4121 ∧
    encode cfg (.add 1 2 3) = some 0x3126 ∧ encode cfg (.mov 1 2) = some 0x210F ∧
    encode cfg (.bcc 9 0x7F) = some 0x97FE)

/-- Words of 95_test_vectors.md section 2, one or more for each family, decode as listed there; that `$216F` is `in` with
`IN_SUBOP = 6` and not shown without it rests on the spec's decisions D17 and D22 (R60, R121). -/
def Obligations.SampleWordsDecode : Prop :=
  ∀ cfg : Config,
    decode cfg 0x3800 = .ok (.ldim 0x80 3) ∧ decode cfg 0x4102 = .ok (.ld8 1 0 4) ∧
    decode cfg 0x2105 = .ok (.str16 1 0 2) ∧ decode cfg 0x5447 = .ok (.adc 4 4 5) ∧
    decode cfg 0x312D = .ok (.asr 1 2 3) ∧ decode cfg 0x080E = .ok (.bcc 0 0x80) ∧
    decode cfg 0x213F = .ok (.cmp 1 2) ∧ decode cfg 0xA00E = .error (.invalidInstruction 0xA00E) ∧
    (cfg.inSubop = some 6 → decode cfg 0x216F = .ok (.inPort 1 2)) ∧
    (cfg.inSubop = none → decode cfg 0x216F = .error (.notShown 0x216F))

/-- R56, R57: the maps by op and by sub, with the fields of R52 to R55 where R51 puts them: d and cc in bits 15-12, a in
11-8, b in 7-4, the 8-bit immediate in 11-4. -/
def Obligations.OpcodeMaps : Prop :=
  ∀ (cfg : Config) (w : Word) (d a b : RegNum) (cc : BitVec 4) (imm8 : Byte),
    d.val = w.toNat / 4096 → a.val = w.toNat / 256 % 16 → b.val = w.toNat / 16 % 16 →
    cc.toNat = w.toNat / 4096 → imm8.toNat = w.toNat / 16 % 256 →
    (w.toNat % 16 = 0x0 → decode cfg w = .ok (.ldim imm8 d)) ∧
    (w.toNat % 16 = 0x1 → decode cfg w = .ok (.ldimh imm8 d)) ∧
    (w.toNat % 16 = 0x2 → decode cfg w = .ok (.ld8 a b d)) ∧
    (w.toNat % 16 = 0x3 → decode cfg w = .ok (.ld16 a b d)) ∧
    (w.toNat % 16 = 0x4 → decode cfg w = .ok (.str8 a b d)) ∧
    (w.toNat % 16 = 0x5 → decode cfg w = .ok (.str16 a b d)) ∧
    (w.toNat % 16 = 0x6 → decode cfg w = .ok (.add a b d)) ∧
    (w.toNat % 16 = 0x7 → decode cfg w = .ok (.adc a b d)) ∧
    (w.toNat % 16 = 0x8 → decode cfg w = .ok (.and a b d)) ∧
    (w.toNat % 16 = 0x9 → decode cfg w = .ok (.or a b d)) ∧
    (w.toNat % 16 = 0xA → decode cfg w = .ok (.xor a b d)) ∧
    (w.toNat % 16 = 0xB → decode cfg w = .ok (.lsl a b d)) ∧
    (w.toNat % 16 = 0xC → decode cfg w = .ok (.lsr a b d)) ∧
    (w.toNat % 16 = 0xD → decode cfg w = .ok (.asr a b d)) ∧
    (w.toNat % 16 = 0xE → cc.toNat ≤ 9 → decode cfg w = .ok (.bcc cc imm8)) ∧
    (w.toNat % 256 = 0x0F → decode cfg w = .ok (.mov a d)) ∧
    (w.toNat % 256 = 0x1F → decode cfg w = .ok (.neg a d)) ∧
    (w.toNat % 256 = 0x2F → decode cfg w = .ok (.not a d)) ∧
    (w.toNat % 256 = 0x3F → decode cfg w = .ok (.cmp a d)) ∧
    (w.toNat % 256 = 0x4F → decode cfg w = .ok (.call a d)) ∧
    (w.toNat % 256 = 0x5F → decode cfg w = .ok (.swap a d))

/-- The words that are no instruction of the two maps: invalid (R59), not shown (R60, the spec's decision D17), or `in`
where `IN_SUBOP` names them (R121, D22). -/
def Obligations.WordsOutsideTheMaps : Prop :=
  ∀ (cfg : Config) (w : Word),
    ((opField w).toNat = 0xE → 10 ≤ (ccField w).toNat → decode cfg w = .error (.invalidInstruction w)) ∧
    ((opField w).toNat = 0xF → 6 ≤ (subField w).toNat → cfg.inSubop = some (subField w) →
      decode cfg w = .ok (.inPort (aField w) (dField w))) ∧
    ((opField w).toNat = 0xF → 6 ≤ (subField w).toNat → cfg.inSubop ≠ some (subField w) →
      decode cfg w = .error (.notShown w))

/-- R121 (the spec's decision D22): with `IN_SUBOP` supplied, the words of that sub-opcode and only those decode to `in`;
without it no word does. -/
def Obligations.InDecodesOnlyBySubop : Prop :=
  ∀ (cfg : Config) (w : Word) (a d : RegNum), cfg.inSubopOk = true →
    (decode cfg w = .ok (.inPort a d) ↔ ∃ sub, cfg.inSubop = some sub ∧ w = encodeR2 sub d a)

/-! ## One step -/

/-- When the bytes at pc decode to an instruction, the step is that instruction's execution and nothing else
(R50, 20_memory.md R43, 60_exceptions.md R136). -/
def Obligations.StepRunsDecoded : Prop :=
  ∀ (s : State) (i : Instr), Running s → Fetchable s →
    decodeBytes s.cfg [readByte s s.pc, readByte s (s.pc + 1)] = .ok (i, []) → step s = exec i s

/-- A step at an odd pc faults (R36, the spec's decision D10), and so does one whose instruction word is not admitted for
fetch (R38, D13; that the fault names the second byte where only that is not admitted is the model's reading, log 11). -/
def Obligations.FetchFaults : Prop :=
  ∀ s : State, Running s →
    (s.pc.toNat % 2 = 1 → step s = .fault (.misalignedFetch s.pc)) ∧
    (s.pc.toNat % 2 = 0 → admitted s.cfg s.pc .fetch = false → step s = .fault (.accessNotAdmitted s.pc .fetch)) ∧
    (s.pc.toNat % 2 = 0 → admitted s.cfg s.pc .fetch = true → admitted s.cfg (s.pc + 1) .fetch = false →
      step s = .fault (.accessNotAdmitted (s.pc + 1) .fetch))

/-- R107: a `bCC` word with cc in 10..15 raises the invalid instruction exception, whatever the flags and the immediate,
and pc, the registers and the flags are not changed.  That the exception is a fault with the word and its address that
ends the run is R131, R133 and the spec's decision D23, read as log 12 says; the state of the run is log 17. -/
def Obligations.InvalidBranchRaises : Prop :=
  ∀ (s : State) (w : Word), Running s → Fetchable s → readWord s s.pc = w → opField w = 0xE → 10 ≤ (ccField w).toNat →
    step s = .fault (.invalidInstruction w s.pc) ∧
    (advanceRun s).pc = s.pc ∧ (advanceRun s).regs = s.regs ∧ (advanceRun s).flags = s.flags

/-- R60 (the spec's decisions D17, D22): a word of the $F group that the source does not show is refused, unless its
sub-opcode is `IN_SUBOP`; then the step is that of `in`. -/
def Obligations.NotShownRefused : Prop :=
  ∀ (s : State) (w : Word), Running s → Fetchable s → readWord s s.pc = w → opField w = 0xF → 6 ≤ (subField w).toNat →
    (s.cfg.inSubop ≠ some (subField w) → step s = .refused (.notShown w)) ∧
    (s.cfg.inSubop = some (subField w) → step s = exec (.inPort (aField w) (dField w)) s)

/-! ## Register operands -/

/-- What a register number reads as (10_state.md R19): the register, or for PC the instruction's address plus
`PC_READ_BIAS` (an inference the spec marks as its own, D5). -/
def Obligations.RegisterRead : Prop :=
  ∀ (s : State) (r : RegNum),
    (r ≠ s.cfg.pcRegnum → readReg s r = s.regs[r]) ∧
    (r = s.cfg.pcRegnum → (readReg s r).toNat = (s.pc.toNat + s.cfg.pcReadBias.toNat) % 65536)

/-- Refusals of register fields, for every instruction (R19, R114, and the order of R136: the spec's decisions D3, D5, D30):
a reserved register first, then PC where it is not admitted, and PC as rD of `call` always.  The refusal carries the
encoding of the instruction (log 25), and none for an `in` that has no word because `IN_SUBOP` is not supplied (log 20). -/
def Obligations.OperandRefusals : Prop :=
  ∀ (i : Instr) (s : State),
    ((∃ r ∈ fieldsOf i, r ∈ s.cfg.reservedRegs) → exec i s = .refused (.reservedReg (encode s.cfg i))) ∧
    ((∀ r ∈ fieldsOf i, r ∉ s.cfg.reservedRegs) → s.cfg.admitPcOperands = false → s.cfg.pcRegnum ∈ guardedOf i →
      exec i s = .refused (.pcOperand (encode s.cfg i))) ∧
    (∀ a d, i = .call a d → a ∉ s.cfg.reservedRegs → d ∉ s.cfg.reservedRegs → d = s.cfg.pcRegnum →
      exec i s = .refused (.pcOperand (encode s.cfg i)))

/-- PC as the destination where `ADMIT_PC_OPERANDS` is true, or of `mov` (R19; an inference the spec marks as its own,
92_eei_decisions.md D5): what the instruction would write to a register goes to pc, and everything else is as there. -/
def Obligations.PcDestinationAdmitted : Prop :=
  ∀ (i : Instr) (q : RegNum) (s t : State), s.cfg.admitPcOperands = true →
    (∀ r ∈ fieldsOf i, r ∉ s.cfg.reservedRegs) → destsOf i = [s.cfg.pcRegnum] → readsDest s.cfg i = false →
    (∀ a d, i ≠ .call a d) → q ≠ s.cfg.pcRegnum → exec (retarget i q) s = .next t →
    ∃ u, exec i s = .next u ∧ u.pc = t.regs[q] ∧ u.regs = s.regs ∧ u.flags = t.flags ∧ u.mem = t.mem ∧
      u.portHistory = t.portHistory ∧ u.mark = t.mark ∧ u.cfg = t.cfg ∧ u.draws = t.draws

/-- PC both read and written where `ADMIT_PC_OPERANDS` is true (R19, D5, an inference the spec marks as its own): `ldimh`
(R71; that the low byte is kept is the spec's decision D32, log 19), `ld8` that keeps the high byte (R75 at the address of
R31; the setting is the spec's decision D11), and `swap` (R115), where PC shows A + `PC_READ_BIAS`. -/
def Obligations.PcReadAndWritten : Prop :=
  ∀ (s : State), s.cfg.admitPcOperands = true → s.cfg.pcRegnum ∉ s.cfg.reservedRegs →
    (∀ imm8 : Byte,
      exec (.ldimh imm8 s.cfg.pcRegnum) s = .next (s.setPc (imm8 ++ lowByte (s.pc + s.cfg.pcReadBias)))) ∧
    (∀ a b : RegNum, s.cfg.ld8Ext = .keep → a ∉ s.cfg.reservedRegs → b ∉ s.cfg.reservedRegs →
      admitted s.cfg (effectiveAddress s a b) .read = true →
      exec (.ld8 a b s.cfg.pcRegnum) s =
        .next (s.setPc (highByte (s.pc + s.cfg.pcReadBias) ++ readByte s (effectiveAddress s a b)))) ∧
    (∀ r : RegNum, r ∉ s.cfg.reservedRegs → r ≠ s.cfg.pcRegnum →
      (exec (.swap r s.cfg.pcRegnum) s = .next ((s.setReg r (s.pc + s.cfg.pcReadBias)).setPc s.regs[r])) ∧
      (exec (.swap s.cfg.pcRegnum r) s = .next ((s.setReg r (s.pc + s.cfg.pcReadBias)).setPc s.regs[r]))) ∧
    exec (.swap s.cfg.pcRegnum s.cfg.pcRegnum) s = .next (s.setPc (s.pc + s.cfg.pcReadBias))

/-- Operands are read before anything is written (R20, the spec's decision D6): with its destination `d` any register that
is not PC, one of its own sources among them, an instruction that writes the one destination rD does what it does with
another destination `q`, and `d` receives what `q` would; and R20's three examples, at any such register.  `call` and
`swap` with other fields are `CallResult` and `SwapResult`, and the two that read rD itself `LdimhResult` and `Ld8Result`. -/
def Obligations.OperandsReadFirst : Prop :=
  (∀ (i : Instr) (d q : RegNum) (s t : State), destsOf i = [d] → readsDest s.cfg i = false → (∀ a r, i ≠ .call a r) →
    d ∉ s.cfg.reservedRegs → d ≠ s.cfg.pcRegnum → q ≠ s.cfg.pcRegnum → exec (retarget i q) s = .next t →
    ∃ u, exec i s = .next u ∧ u.regs[d] = t.regs[q] ∧ (∀ r : RegNum, r ≠ d → u.regs[r] = s.regs[r]) ∧ u.pc = t.pc ∧
      u.flags = t.flags ∧ u.mem = t.mem ∧ u.portHistory = t.portHistory ∧ u.mark = t.mark ∧ u.cfg = t.cfg ∧
      u.draws = t.draws) ∧
  ∀ (r : RegNum) (s : State), r ∉ s.cfg.reservedRegs → r ≠ s.cfg.pcRegnum →
    (∃ t, exec (.add r r r) s = .next t ∧ t.regs[r] = s.regs[r] + s.regs[r]) ∧
    (∃ t, exec (.call r r) s = .next t ∧ t.pc = s.regs[r] ∧ t.regs[r] = s.pc + 2) ∧
    (∃ t, exec (.swap r r) s = .next t ∧ t = s.setPc (s.pc + 2))

/-! In the results below `x[i]` of a rule is `readReg`, whose value for PC is what `RegisterRead` says. -/

/-! ## Load immediate -/

/-- R70; what pc does is `PcFrame`'s, here and in every result below that does not say it. -/
def Obligations.LdimResult : Prop :=
  ∀ (imm8 : Byte) (d : RegNum) (s : State),
    decode s.cfg (encodeI8 0x0 d imm8) = .ok (.ldim imm8 d) ∧
    (OperandsOk s.cfg [d] → d ≠ s.cfg.pcRegnum → ∃ t v, exec (.ldim imm8 d) s = .next t ∧ WroteDest s t d v ∧ v.toInt = imm8.toInt ∧
      t.flags = s.flags ∧ OnlyRegsAndFlags s t)

/-- R71; that the low byte is kept is the spec's decision D32. -/
def Obligations.LdimhResult : Prop :=
  ∀ (imm8 : Byte) (d : RegNum) (s : State),
    decode s.cfg (encodeI8 0x1 d imm8) = .ok (.ldimh imm8 d) ∧
    (OperandsOk s.cfg [d] → d ≠ s.cfg.pcRegnum → ∃ t v, exec (.ldimh imm8 d) s = .next t ∧ WroteDest s t d v ∧
      v.toNat = imm8.toNat * 256 + (readReg s d).toNat % 256 ∧ t.flags = s.flags ∧ OnlyRegsAndFlags s t)

/-- R72, derived in the spec, and on its decision D32: `ldim` of the low byte, then `ldimh` of the high byte, loads any constant; for a constant that is the sign
extension of its low byte `ldim` alone does; in the other order the high byte is lost. -/
def Obligations.ConstantInTwoInstructions : Prop :=
  ∀ (k : Word) (d : RegNum) (s : State), d ∉ s.cfg.reservedRegs → d ≠ s.cfg.pcRegnum →
    ∃ t u, exec (.ldim (lowByte k) d) s = .next t ∧ exec (.ldimh (highByte k) d) t = .next u ∧ u.regs[d] = k ∧
      ((k.toNat ≤ 0x7F ∨ 0xFF80 ≤ k.toNat) → t.regs[d] = k) ∧
      ∃ p q, exec (.ldimh (highByte k) d) s = .next p ∧ exec (.ldim (lowByte k) d) p = .next q ∧
        q.regs[d].toInt = (lowByte k).toInt

/-! ## Load and store -/

/-- R34: the byte order of `MemRead` and `MemWrite` under each value of `ENDIAN` (the spec's decision D8). -/
def Obligations.ByteOrder : Prop :=
  ∀ (s : State) (addr v : Word),
    (s.cfg.endian = .big →
      (readWord s addr).toNat = (readByte s addr).toNat * 256 + (readByte s (addr + 1)).toNat ∧
      (readByte (writeWord s addr v) addr).toNat = v.toNat / 256 ∧
      (readByte (writeWord s addr v) (addr + 1)).toNat = v.toNat % 256) ∧
    (s.cfg.endian = .little →
      (readWord s addr).toNat = (readByte s (addr + 1)).toNat * 256 + (readByte s addr).toNat ∧
      (readByte (writeWord s addr v) addr).toNat = v.toNat % 256 ∧
      (readByte (writeWord s addr v) (addr + 1)).toNat = v.toNat / 256)

/-- The model's window test is the set of R43 (the spec's decision D15), with `BRANCH_BIAS` at any value; that the bound
`BRANCH_BIAS + 2` is not truncated, so that a bias of $FFFF puts the storing instruction's own first byte in the window, is
the model's reading (log 24). -/
def Obligations.WindowIsTheRange : Prop :=
  ∀ (cfg : Config) (pc addr : Word), inPrefetchWindow cfg pc addr = true ↔ InWindow cfg pc addr

/-- R75, with the address of R31, under each value of `LD8_EXT` (the spec's decisions D7, D11, D13; a drawn high byte is the
free value of the counter, log 8). -/
def Obligations.Ld8Result : Prop :=
  ∀ (a b d : RegNum) (s : State),
    decode s.cfg (encodeR3 0x2 d a b) = .ok (.ld8 a b d) ∧
    (OperandsOk s.cfg [a, b, d] →
      (admitted s.cfg (effectiveAddress s a b) .read = false →
        exec (.ld8 a b d) s = .fault (.accessNotAdmitted (effectiveAddress s a b) .read)) ∧
      (admitted s.cfg (effectiveAddress s a b) .read = true →
        d ≠ s.cfg.pcRegnum → ∃ t u, exec (.ld8 a b d) s = .next t ∧
          WroteDest s t d (u ++ Memory.read s.mem (effectiveAddress s a b).toNat) ∧
          (s.cfg.ld8Ext = .zero → u = 0 ∧ t.draws = s.draws) ∧
          (s.cfg.ld8Ext = .sign →
            u = (if (Memory.read s.mem (effectiveAddress s a b).toNat).getLsbD 7 then 0xFF else 0) ∧ t.draws = s.draws) ∧
          (s.cfg.ld8Ext = .keep → u = highByte (readReg s d) ∧ t.draws = s.draws) ∧
          (s.cfg.ld8Ext = .draw → u = Config.freeByte s.draws ∧ t.draws = s.draws + 1) ∧
          t.flags = s.flags ∧ SameMemory s t ∧ SameRest s t))

/-- R76, with the address of R31 (the spec's decisions D7, D8, D9, D13; which byte an admission fault names: log 11). -/
def Obligations.Ld16Result : Prop :=
  ∀ (a b d : RegNum) (s : State),
    decode s.cfg (encodeR3 0x3 d a b) = .ok (.ld16 a b d) ∧
    (OperandsOk s.cfg [a, b, d] →
      ((effectiveAddress s a b).toNat % 2 = 1 →
        exec (.ld16 a b d) s = .fault (.misalignedData (effectiveAddress s a b))) ∧
      ((effectiveAddress s a b).toNat % 2 = 0 → ¬ WordAdmitted s.cfg (effectiveAddress s a b) .read →
        ∃ addr, exec (.ld16 a b d) s = .fault (.accessNotAdmitted addr .read) ∧ admitted s.cfg addr .read = false ∧
          (addr = effectiveAddress s a b ∨ addr = effectiveAddress s a b + 1)) ∧
      ((effectiveAddress s a b).toNat % 2 = 0 → WordAdmitted s.cfg (effectiveAddress s a b) .read →
        d ≠ s.cfg.pcRegnum → ∃ t v, exec (.ld16 a b d) s = .next t ∧ WroteDest s t d v ∧
          (s.cfg.endian = .big →
            v = Memory.read s.mem (effectiveAddress s a b).toNat ++ Memory.read s.mem ((effectiveAddress s a b).toNat + 1)) ∧
          (s.cfg.endian = .little →
            v = Memory.read s.mem ((effectiveAddress s a b).toNat + 1) ++ Memory.read s.mem (effectiveAddress s a b).toNat) ∧
          t.flags = s.flags ∧ OnlyRegsAndFlags s t))

/-- R77, with the window of R43 checked before admission (the spec's decisions D7, D12, D13, D15, D30). -/
def Obligations.Str8Result : Prop :=
  ∀ (a b d : RegNum) (s : State),
    decode s.cfg (encodeR3 0x4 d a b) = .ok (.str8 a b d) ∧
    (OperandsOk s.cfg [a, b, d] →
      (InWindow s.cfg s.pc (effectiveAddress s a b) →
        exec (.str8 a b d) s = .fault (.prefetchWindowStore (effectiveAddress s a b))) ∧
      (¬ InWindow s.cfg s.pc (effectiveAddress s a b) → admitted s.cfg (effectiveAddress s a b) .write = false →
        exec (.str8 a b d) s = .fault (.accessNotAdmitted (effectiveAddress s a b) .write)) ∧
      (¬ InWindow s.cfg s.pc (effectiveAddress s a b) → admitted s.cfg (effectiveAddress s a b) .write = true →
        ∃ t, exec (.str8 a b d) s = .next t ∧ WroteNoReg s t ∧ t.flags = s.flags ∧ SameRest s t ∧ t.draws = s.draws ∧
          (Memory.read t.mem (effectiveAddress s a b).toNat).toNat = (readReg s d).toNat % 256 ∧
          ∀ addr : Nat, addr ≠ (effectiveAddress s a b).toNat → Memory.read t.mem addr = Memory.read s.mem addr))

/-- R78, with the order of checks of R136 (the spec's decisions D7, D8, D9, D13, D15, D30; which byte an admission fault
names: log 11). -/
def Obligations.Str16Result : Prop :=
  ∀ (a b d : RegNum) (s : State),
    decode s.cfg (encodeR3 0x5 d a b) = .ok (.str16 a b d) ∧
    (OperandsOk s.cfg [a, b, d] →
      ((effectiveAddress s a b).toNat % 2 = 1 →
        exec (.str16 a b d) s = .fault (.misalignedData (effectiveAddress s a b))) ∧
      ((effectiveAddress s a b).toNat % 2 = 0 →
        (InWindow s.cfg s.pc (effectiveAddress s a b) ∨ InWindow s.cfg s.pc (effectiveAddress s a b + 1)) →
        exec (.str16 a b d) s = .fault (.prefetchWindowStore (effectiveAddress s a b))) ∧
      ((effectiveAddress s a b).toNat % 2 = 0 →
        ¬ (InWindow s.cfg s.pc (effectiveAddress s a b) ∨ InWindow s.cfg s.pc (effectiveAddress s a b + 1)) →
        (¬ WordAdmitted s.cfg (effectiveAddress s a b) .write →
          ∃ addr, exec (.str16 a b d) s = .fault (.accessNotAdmitted addr .write) ∧
            admitted s.cfg addr .write = false ∧
            (addr = effectiveAddress s a b ∨ addr = effectiveAddress s a b + 1)) ∧
        (WordAdmitted s.cfg (effectiveAddress s a b) .write →
          ∃ t, exec (.str16 a b d) s = .next t ∧ WroteNoReg s t ∧ t.flags = s.flags ∧ SameRest s t ∧ t.draws = s.draws ∧
            (s.cfg.endian = .big →
              Memory.read t.mem (effectiveAddress s a b).toNat = highByte (readReg s d) ∧
              Memory.read t.mem ((effectiveAddress s a b).toNat + 1) = lowByte (readReg s d)) ∧
            (s.cfg.endian = .little →
              Memory.read t.mem (effectiveAddress s a b).toNat = lowByte (readReg s d) ∧
              Memory.read t.mem ((effectiveAddress s a b).toNat + 1) = highByte (readReg s d)) ∧
            ∀ addr : Nat, addr ≠ (effectiveAddress s a b).toNat → addr ≠ (effectiveAddress s a b).toNat + 1 →
              Memory.read t.mem addr = Memory.read s.mem addr)))

/-- A word stored by `str16` and loaded back by `ld16` through the same general registers is the word stored, under
either byte order (R78's corner case, 20_memory.md R40). -/
def Obligations.StoreThenLoadWord : Prop :=
  ∀ (a b d q : RegNum) (s t u : State),
    a ≠ s.cfg.pcRegnum → b ≠ s.cfg.pcRegnum → q ≠ s.cfg.pcRegnum →
    exec (.str16 a b d) s = .next t → exec (.ld16 a b q) t = .next u → u.regs[q] = readReg s d

/-! ## Arithmetic and logic -/

/-- R85. -/
def Obligations.AddResult : Prop :=
  ∀ (a b d : RegNum) (s : State),
    decode s.cfg (encodeR3 0x6 d a b) = .ok (.add a b d) ∧
    (OperandsOk s.cfg [a, b, d] → d ≠ s.cfg.pcRegnum → ∃ t v, exec (.add a b d) s = .next t ∧ WroteDest s t d v ∧
      v.toNat = ((readReg s a).toNat + (readReg s b).toNat) % 65536 ∧
      t.flags.c = decide (65536 ≤ (readReg s a).toNat + (readReg s b).toNat) ∧ NZFollow t v ∧ OnlyRegsAndFlags s t)

/-- R86. -/
def Obligations.AdcResult : Prop :=
  ∀ (a b d : RegNum) (s : State),
    decode s.cfg (encodeR3 0x7 d a b) = .ok (.adc a b d) ∧
    (OperandsOk s.cfg [a, b, d] → d ≠ s.cfg.pcRegnum → ∃ t v, exec (.adc a b d) s = .next t ∧ WroteDest s t d v ∧
      v.toNat = ((readReg s a).toNat + (readReg s b).toNat + (if s.flags.c then 1 else 0)) % 65536 ∧
      t.flags.c = decide (65536 ≤ (readReg s a).toNat + (readReg s b).toNat + (if s.flags.c then 1 else 0)) ∧
      NZFollow t v ∧ OnlyRegsAndFlags s t)

/-- R87. -/
def Obligations.AndResult : Prop :=
  ∀ (a b d : RegNum) (s : State),
    decode s.cfg (encodeR3 0x8 d a b) = .ok (.and a b d) ∧
    (OperandsOk s.cfg [a, b, d] → d ≠ s.cfg.pcRegnum → ∃ t v, exec (.and a b d) s = .next t ∧ WroteDest s t d v ∧
      (∀ j < 16, v.getLsbD j = ((readReg s a).getLsbD j && (readReg s b).getLsbD j)) ∧
      t.flags.c = s.flags.c ∧ NZFollow t v ∧ OnlyRegsAndFlags s t)

/-- R88. -/
def Obligations.OrResult : Prop :=
  ∀ (a b d : RegNum) (s : State),
    decode s.cfg (encodeR3 0x9 d a b) = .ok (.or a b d) ∧
    (OperandsOk s.cfg [a, b, d] → d ≠ s.cfg.pcRegnum → ∃ t v, exec (.or a b d) s = .next t ∧ WroteDest s t d v ∧
      (∀ j < 16, v.getLsbD j = ((readReg s a).getLsbD j || (readReg s b).getLsbD j)) ∧
      t.flags.c = s.flags.c ∧ NZFollow t v ∧ OnlyRegsAndFlags s t)

/-- R89. -/
def Obligations.XorResult : Prop :=
  ∀ (a b d : RegNum) (s : State),
    decode s.cfg (encodeR3 0xA d a b) = .ok (.xor a b d) ∧
    (OperandsOk s.cfg [a, b, d] → d ≠ s.cfg.pcRegnum → ∃ t v, exec (.xor a b d) s = .next t ∧ WroteDest s t d v ∧
      (∀ j < 16, v.getLsbD j = ((readReg s a).getLsbD j ^^ (readReg s b).getLsbD j)) ∧
      t.flags.c = s.flags.c ∧ NZFollow t v ∧ OnlyRegsAndFlags s t)

/-- Subtraction is `neg rY, rT` then `add rX, rT, rD`, and the C it leaves is 1 exactly when rY is not 0 and rX is not
below rY (R85's corner case, R111). -/
def Obligations.SubtractByNegAdd : Prop :=
  ∀ (x y tmp d : RegNum) (s : State),
    (∀ r ∈ [x, y, tmp, d], r ∉ s.cfg.reservedRegs ∧ r ≠ s.cfg.pcRegnum) → tmp ≠ x →
    ∃ t u, exec (.neg y tmp) s = .next t ∧ exec (.add x tmp d) t = .next u ∧ u.regs[d] = s.regs[x] - s.regs[y] ∧
      u.flags.c = decide (s.regs[y] ≠ 0 ∧ s.regs[y].toNat ≤ s.regs[x].toNat)

/-! ## Shifts -/

/-- R96, for an amount of 1 to 15. -/
def Obligations.LslResult : Prop :=
  ∀ (a b d : RegNum) (s : State),
    decode s.cfg (encodeR3 0xB d a b) = .ok (.lsl a b d) ∧
    (OperandsOk s.cfg [a, b, d] → d ≠ s.cfg.pcRegnum → 1 ≤ (readReg s b).toNat → (readReg s b).toNat ≤ 15 →
      ∃ t v, exec (.lsl a b d) s = .next t ∧ WroteDest s t d v ∧
        v.toNat = (readReg s a).toNat * 2 ^ (readReg s b).toNat % 65536 ∧
        t.flags.c = (readReg s a).getLsbD (16 - (readReg s b).toNat) ∧ NZFollow t v ∧ OnlyRegsAndFlags s t)

/-- R97, for an amount of 1 to 15; that zeros enter at bit 15 is derived in the spec. -/
def Obligations.LsrResult : Prop :=
  ∀ (a b d : RegNum) (s : State),
    decode s.cfg (encodeR3 0xC d a b) = .ok (.lsr a b d) ∧
    (OperandsOk s.cfg [a, b, d] → d ≠ s.cfg.pcRegnum → 1 ≤ (readReg s b).toNat → (readReg s b).toNat ≤ 15 →
      ∃ t v, exec (.lsr a b d) s = .next t ∧ WroteDest s t d v ∧
        v.toNat = (readReg s a).toNat / 2 ^ (readReg s b).toNat ∧
        t.flags.c = (readReg s a).getLsbD ((readReg s b).toNat - 1) ∧ NZFollow t v ∧ OnlyRegsAndFlags s t)

/-- R98, for an amount of 1 to 15. -/
def Obligations.AsrResult : Prop :=
  ∀ (a b d : RegNum) (s : State),
    decode s.cfg (encodeR3 0xD d a b) = .ok (.asr a b d) ∧
    (OperandsOk s.cfg [a, b, d] → d ≠ s.cfg.pcRegnum → 1 ≤ (readReg s b).toNat → (readReg s b).toNat ≤ 15 →
      ∃ t v, exec (.asr a b d) s = .next t ∧ WroteDest s t d v ∧
        (∀ j < 16, v.getLsbD j =
          if j + (readReg s b).toNat < 16 then (readReg s a).getLsbD (j + (readReg s b).toNat)
          else (readReg s a).getLsbD 15) ∧
        t.flags.c = (readReg s a).getLsbD ((readReg s b).toNat - 1) ∧ NZFollow t v ∧ OnlyRegsAndFlags s t)

/-- R99 (the spec's decision D20): shifts by 0 and by 16 or more, under both settings of `SHIFT_EDGE`; N and Z follow the
result, drawn or not.  A drawn value is the free value of the counter (log 8); that a supplied function is given as formulas
and decides an amount of 0 as well is the model's choice (log 15). -/
def Obligations.ShiftEdgeAmounts : Prop :=
  ∀ (kind : ShiftKind) (a b d : RegNum) (s : State), OperandsOk s.cfg [a, b, d] →
    d ≠ s.cfg.pcRegnum → (readReg s b = 0 ∨ 16 ≤ (readReg s b).toNat) →
    ∃ t v, exec (shiftInstr kind a b d) s = .next t ∧ WroteDest s t d v ∧ NZFollow t v ∧ SameMemory s t ∧ SameRest s t ∧
      (s.cfg.shiftEdge = .draw →
        (readReg s b = 0 → v = readReg s a) ∧
        (16 ≤ (readReg s b).toNat → v = Config.freeWord s.draws) ∧
        t.flags.c = Config.freeBit s.draws ∧ t.draws = s.draws + 1) ∧
      (∀ f : EdgeFunction, s.cfg.shiftEdge = .supplied f →
        (v, t.flags.c) = edgeAnswer f kind (readReg s a) (readReg s b) s.flags.c ∧ t.draws = s.draws)

/-! ## Conditional branch -/

/-- R105, the condition by R106 and the wrap by the spec's decisions D7, D18.  That cc above 9 is a fault with the word and
its address is R107, R131, R133 and the spec's decision D23, read as log 12 says. -/
def Obligations.BccResult : Prop :=
  ∀ (cc : BitVec 4) (imm8 : Byte) (s : State),
    (10 ≤ cc.toNat → exec (.bcc cc imm8) s = .fault (.invalidInstruction (encodeB cc imm8) s.pc)) ∧
    (cc.toNat ≤ 9 → decode s.cfg (encodeB cc imm8) = .ok (.bcc cc imm8) ∧
      ∃ t, exec (.bcc cc imm8) s = .next t ∧
        (condHolds s.cfg cc s.flags = true →
          (t.pc.toNat : Int) = ((s.pc.toNat : Int) + s.cfg.branchBias.toNat + 2 * imm8.toInt) % 65536) ∧
        (condHolds s.cfg cc s.flags = false → t.pc.toNat = (s.pc.toNat + 2) % 65536) ∧
        t = s.setPc t.pc)

/-- R108 (the spec's decision D19): the default `BRANCH_BIAS` is 8, and under it a taken branch reaches from 131 instructions forward to 124
backwards, counted from the branch. -/
def Obligations.BranchRange : Prop :=
  Config.launch.branchBias = 8 ∧
  ∀ (cc : BitVec 4) (imm8 : Byte) (s : State), s.cfg.branchBias = 8 → cc.toNat ≤ 9 → condHolds s.cfg cc s.flags = true →
    exec (.bcc cc 0x7F) s = .next (s.setPc (s.pc + 2 * 131)) ∧
    exec (.bcc cc 0x80) s = .next (s.setPc (s.pc - 2 * 124)) ∧
    ∃ n : Int, -124 ≤ n ∧ n ≤ 131 ∧ exec (.bcc cc imm8) s = .next (s.setPc (s.pc + BitVec.ofInt 16 (2 * n)))

/-- The assembler's offset for a label makes the branch go to that label (R63, derived in the spec; which labels
get one: log 26, 27). -/
def Obligations.AssembledBranchReachesLabel : Prop :=
  ∀ (cfg : Config) (addr label : Word) (imm8 : Byte), addr.toNat % 2 = 0 → cfg.branchBias.toNat % 2 = 0 →
    branchImm8 cfg addr label = some imm8 → branchTarget cfg addr imm8 = label

/-! ## Two-register instructions -/

/-- R110: a move, or a jump to the value itself when rD is PC, whatever `ADMIT_PC_OPERANDS` is (R19; the wrap of pc is the
spec's decision D7). -/
def Obligations.MovResult : Prop :=
  ∀ (a d : RegNum) (s : State),
    decode s.cfg (encodeR2 0x0 d a) = .ok (.mov a d) ∧
    (MovOperandsOk s.cfg a d → ∃ t, exec (.mov a d) s = .next t ∧ WroteReg s t d (readReg s a) ∧
      t.flags = s.flags ∧ OnlyRegsAndFlags s t)

/-- R111, with the C of R116 (the spec's decision D21; a drawn C is the free value of the counter, log 8). -/
def Obligations.NegResult : Prop :=
  ∀ (a d : RegNum) (s : State),
    decode s.cfg (encodeR2 0x1 d a) = .ok (.neg a d) ∧
    (OperandsOk s.cfg [a, d] → d ≠ s.cfg.pcRegnum → ∃ t v, exec (.neg a d) s = .next t ∧ WroteDest s t d v ∧
      v.toNat = (65536 - (readReg s a).toNat) % 65536 ∧ NZFollow t v ∧ SameMemory s t ∧ SameRest s t ∧
      (s.cfg.subCarry = .addComplement → t.flags.c = decide (readReg s a = 0) ∧ t.draws = s.draws) ∧
      (s.cfg.subCarry = .borrow → t.flags.c = decide (readReg s a ≠ 0) ∧ t.draws = s.draws) ∧
      (s.cfg.subCarry = .draw → t.flags.c = Config.freeBit s.draws ∧ t.draws = s.draws + 1))

/-- R112. -/
def Obligations.NotResult : Prop :=
  ∀ (a d : RegNum) (s : State),
    decode s.cfg (encodeR2 0x2 d a) = .ok (.not a d) ∧
    (OperandsOk s.cfg [a, d] → d ≠ s.cfg.pcRegnum → ∃ t v, exec (.not a d) s = .next t ∧ WroteDest s t d v ∧
      (∀ j < 16, v.getLsbD j = !(readReg s a).getLsbD j) ∧
      t.flags.c = s.flags.c ∧ NZFollow t v ∧ OnlyRegsAndFlags s t)

/-- R113, with the C of R116 (the spec's decision D21; a drawn C as in `NegResult`): rD - rA is discarded; N is bit 15 of the truncated difference. -/
def Obligations.CmpResult : Prop :=
  ∀ (a d : RegNum) (s : State),
    decode s.cfg (encodeR2 0x3 d a) = .ok (.cmp a d) ∧
    (OperandsOk s.cfg [a, d] → ∃ t, exec (.cmp a d) s = .next t ∧ WroteNoReg s t ∧ SameMemory s t ∧ SameRest s t ∧
      t.flags.n = decide (32768 ≤ ((readReg s d).toNat + 65536 - (readReg s a).toNat) % 65536) ∧
      t.flags.z = decide (readReg s d = readReg s a) ∧
      (s.cfg.subCarry = .addComplement →
        t.flags.c = decide ((readReg s a).toNat ≤ (readReg s d).toNat) ∧
        t.flags.c = decide (65536 ≤ (readReg s d).toNat + (~~~(readReg s a)).toNat + 1) ∧ t.draws = s.draws) ∧
      (s.cfg.subCarry = .borrow →
        t.flags.c = decide ((readReg s d).toNat < (readReg s a).toNat) ∧ t.draws = s.draws) ∧
      (s.cfg.subCarry = .draw → t.flags.c = Config.freeBit s.draws ∧ t.draws = s.draws + 1))

/-- R114: rD receives the address of the next instruction, pc the target; rD may not be PC. -/
def Obligations.CallResult : Prop :=
  ∀ (a d : RegNum) (s : State),
    decode s.cfg (encodeR2 0x4 d a) = .ok (.call a d) ∧
    (CallOperandsOk s.cfg a d → ∃ t, exec (.call a d) s = .next t ∧ t.pc = readReg s a ∧
      t.regs[d].toNat = (s.pc.toNat + 2) % 65536 ∧ (∀ r : RegNum, r ≠ d → t.regs[r] = s.regs[r]) ∧
      t.flags = s.flags ∧ OnlyRegsAndFlags s t)

/-- R115, where neither field names PC. -/
def Obligations.SwapResult : Prop :=
  ∀ (a d : RegNum) (s : State),
    decode s.cfg (encodeR2 0x5 d a) = .ok (.swap a d) ∧
    (OperandsOk s.cfg [a, d] → a ≠ s.cfg.pcRegnum → d ≠ s.cfg.pcRegnum → ∃ t, exec (.swap a d) s = .next t ∧
      (∀ r : RegNum, r ≠ a → r ≠ d → t.regs[r] = s.regs[r]) ∧
      t.regs[a] = s.regs[d] ∧ t.regs[d] = s.regs[a] ∧
      t.flags = s.flags ∧ OnlyRegsAndFlags s t)

/-- A call through `call rA, rD`, from any state, followed by `mov rD, PC` returns to the instruction after the call
(R110, R114). -/
def Obligations.CallThenMovReturns : Prop :=
  ∀ (a d : RegNum) (s t : State), exec (.call a d) s = .next t → s.cfg.pcRegnum ∉ s.cfg.reservedRegs →
    ∃ u, exec (.mov d s.cfg.pcRegnum) t = .next u ∧ u.pc = s.pc + 2 ∧ u.regs = t.regs ∧ u.flags = s.flags

/-! ## I/O port input -/

/-- R120, with the port history of R32 and the flags of R122 (the spec's decisions D16, D22; the choice and drawn flags are
free values of the counter, log 8, 16). -/
def Obligations.InResult : Prop :=
  ∀ (a d : RegNum) (s : State),
    (OperandsOk s.cfg [a, d] → d ≠ s.cfg.pcRegnum → ∃ t, exec (.inPort a d) s = .next t ∧
      WroteDest s t d (Config.portRead s.portHistory (readReg s a) s.draws) ∧
      t.portHistory = s.portHistory ++ [.read (readReg s a)] ∧ SameMemory s t ∧ t.mark = s.mark ∧ t.cfg = s.cfg ∧
      (s.cfg.inFlags = .unchanged → t.flags = s.flags ∧ t.draws = s.draws + 1) ∧
      (s.cfg.inFlags = .draw →
        t.flags.c = Config.freeBit s.draws ∧ t.flags.n = Config.freeBit (s.draws + 1) ∧
        t.flags.z = Config.freeBit (s.draws + 2) ∧ t.draws = s.draws + 4))

/-! ## Frames over all instructions -/

/-- No instruction changes a register it does not name as destination (R10, R19), nor the slot of number PC_REGNUM, which is
no register of R24 but the model's own (log 9). -/
def Obligations.RegisterFrame : Prop :=
  ∀ (i : Instr) (s t : State), exec i s = .next t →
    (∀ r : RegNum, r ∉ destsOf i → t.regs[r] = s.regs[r]) ∧ t.regs[s.cfg.pcRegnum] = s.regs[s.cfg.pcRegnum]

/-- The flags each instruction leaves alone (R17). -/
def Obligations.FlagFrame : Prop :=
  ∀ (i : Instr) (s t : State), exec i s = .next t →
    (keepsFlags i = true → t.flags = s.flags) ∧ (keepsCarry i = true → t.flags.c = s.flags.c)

/-- Only `str8` and `str16` change memory, and only the byte or the word at the effective address (R33, R77, R78). -/
def Obligations.MemoryFrame : Prop :=
  ∀ (i : Instr) (s t : State) (addr : Nat), exec i s = .next t →
    (∀ a b d, i = .str8 a b d → addr ≠ (effectiveAddress s a b).toNat) →
    (∀ a b d, i = .str16 a b d →
      addr ≠ (effectiveAddress s a b).toNat ∧ addr ≠ (effectiveAddress s a b + 1).toNat) →
    Memory.read t.mem addr = Memory.read s.mem addr

/-- Only `in` reaches the port space, and it reads one port, once (R32, R33). -/
def Obligations.PortFrame : Prop :=
  ∀ (i : Instr) (s t : State), exec i s = .next t →
    (∀ a d, i = .inPort a d → t.portHistory = s.portHistory ++ [.read (readReg s a)]) ∧
    ((∀ a d, i ≠ .inPort a d) → t.portHistory = s.portHistory)

/-- pc becomes anything but A + 2 only by a `bCC`, a `call`, or a destination that names PC (R14 with its wrap, the spec's
decision D7; R15). -/
def Obligations.PcFrame : Prop :=
  ∀ (i : Instr) (s t : State), exec i s = .next t → (∀ cc imm8, i ≠ .bcc cc imm8) → (∀ a d, i ≠ .call a d) →
    s.cfg.pcRegnum ∉ destsOf i → t.pc.toNat = (s.pc.toNat + 2) % 65536

/-- Where no parameter is a draw, an instruction other than `in` depends on no free value that is drawn: it does the same
at every value of the counter (00_scope.md R3, R6; the counter is the model's, log 8). -/
def Obligations.NoDrawNoFreeValue : Prop :=
  ∀ (i : Instr) (s t : State) (k : Nat), NoDraw s.cfg → (∀ a d, i ≠ .inPort a d) → exec i s = .next t →
    exec i (s.setDraws k) = .next (t.setDraws k)

/-! ## Whole machine -/

/-- No step changes the configuration, and a step to a next state starts and ends with no mark (R24, R6). -/
def Obligations.ConfigAndMarkFixed : Prop :=
  ∀ s t : State, step s = .next t → t.cfg = s.cfg ∧ s.mark = none ∧ t.mark = none

/-- Every step keeps the invariant: memory in canonical form, a configuration that the spec allows. -/
def Obligations.StepKeepsInvariant : Prop := ∀ s t : State, Inv s → step s = .next t → Inv t

/-- The invariant holds after reset under every configuration that the spec allows, and under that of the launch. -/
def Obligations.ResetHasInvariant : Prop :=
  (∀ cfg : Config, cfg.wf = true → Inv (State.resetWith cfg)) ∧ Inv State.reset

/-- Every state of every run that starts with the invariant has it, and has the configuration of its start (runs with their
marks: log 17). -/
def Obligations.RunKeepsInvariant : Prop :=
  ∀ (s : State) (k : Nat), Inv s → Inv (runFor k s) ∧ (runFor k s).cfg = s.cfg

/-- Reset as R25 gives it (the spec's decision D26): pc is `RESET_PC`, no mark, an empty port history; and pc is even. -/
def Obligations.ResetState : Prop :=
  ∀ cfg : Config, cfg.wf = true →
    (State.resetWith cfg).pc = cfg.resetPc ∧ (State.resetWith cfg).mark = none ∧
    (State.resetWith cfg).portHistory = [] ∧ (State.resetWith cfg).cfg = cfg ∧
    (State.resetWith cfg).pc.toNat % 2 = 0

/-- At `HALT_ADDR` with no mark the run is over: the state is final (R152, D27) and stays (log 13). -/
def Obligations.FinalStateStays : Prop :=
  ∀ s : State, s.mark = none → s.cfg.haltAddr = some s.pc → isFinal s = true ∧ ∀ k, runFor k s = s

/-- A run that meets a fault or a refusal after any number of steps ends with no postcondition (R6, R132, R133, the spec's
decision D23; runs with their marks: log 17). -/
def Obligations.StoppedRunNeverEnds : Prop :=
  ∀ (s : State) (j : Nat) (Q : State → Prop), (∀ t, step (runFor j s) ≠ .next t) → ¬ EndsWith s Q
end

