-- ==== Sys2Proof/Laws/Decode.lean ====
section
/-! SUPPORT. The fields of an encoded word, format by format (30_encoding.md R51 to R55), and the bytes of a word. -/

namespace Sys2Proof

/-- The bits of a word made of a 4-bit, an 8-bit and a 4-bit field. -/
theorem getLsbD_word484 (x : BitVec 4) (y : BitVec 8) (z : BitVec 4) (i : Nat) :
    (x ++ y ++ z : Word).getLsbD i =
      if i < 4 then z.getLsbD i else if i < 12 then y.getLsbD (i - 4) else x.getLsbD (i - 12) := by
  have outer : (x ++ y ++ z : Word).getLsbD i = if i < 4 then z.getLsbD i else (x ++ y).getLsbD (i - 4) :=
    BitVec.getLsbD_append
  have inner : (x ++ y).getLsbD (i - 4) = if i - 4 < 8 then y.getLsbD (i - 4) else x.getLsbD (i - 4 - 8) :=
    BitVec.getLsbD_append
  rw [outer]
  split
  · rfl
  · rw [inner]
    have h8 : i - 4 < 8 ↔ i < 12 := by omega
    have hs : i - 4 - 8 = i - 12 := by omega
    simp only [h8, hs]

/-- The bits of a word made of four 4-bit fields. -/
theorem getLsbD_word4444 (x y z t : BitVec 4) (i : Nat) :
    (x ++ y ++ z ++ t : Word).getLsbD i =
      if i < 4 then t.getLsbD i else if i < 8 then z.getLsbD (i - 4)
      else if i < 12 then y.getLsbD (i - 8) else x.getLsbD (i - 12) := by
  have outer : (x ++ y ++ z ++ t : Word).getLsbD i = if i < 4 then t.getLsbD i else (x ++ y ++ z).getLsbD (i - 4) :=
    BitVec.getLsbD_append
  have middle : (x ++ y ++ z).getLsbD (i - 4) = if i - 4 < 4 then z.getLsbD (i - 4) else (x ++ y).getLsbD (i - 4 - 4) :=
    BitVec.getLsbD_append
  have inner : (x ++ y).getLsbD (i - 4 - 4) =
      if i - 4 - 4 < 4 then y.getLsbD (i - 4 - 4) else x.getLsbD (i - 4 - 4 - 4) := BitVec.getLsbD_append
  rw [outer]
  split
  · rfl
  · rw [middle, inner]
    have h8 : i - 4 < 4 ↔ i < 8 := by omega
    have h12 : i - 8 < 4 ↔ i < 12 := by omega
    have hs : i - 4 - 4 = i - 8 := by omega
    have ht : i - 8 - 4 = i - 12 := by omega
    simp only [h8, hs, h12, ht]

/-- The low nibble of a word made of three fields. -/
theorem word484_low (x : BitVec 4) (y : BitVec 8) (z : BitVec 4) : (x ++ y ++ z : Word).extractLsb' 0 4 = z := by
  apply BitVec.eq_of_getLsbD_eq
  intro i hi
  rw [BitVec.getLsbD_extractLsb', getLsbD_word484]
  simp [hi]

theorem word484_mid (x : BitVec 4) (y : BitVec 8) (z : BitVec 4) : (x ++ y ++ z : Word).extractLsb' 4 8 = y := by
  apply BitVec.eq_of_getLsbD_eq
  intro i hi
  have h4 : ¬ 4 + i < 4 := by omega
  have h12 : 4 + i < 12 := by omega
  rw [BitVec.getLsbD_extractLsb', getLsbD_word484, if_neg h4, if_pos h12]
  simp [hi]

theorem word484_high (x : BitVec 4) (y : BitVec 8) (z : BitVec 4) : (x ++ y ++ z : Word).extractLsb' 12 4 = x := by
  apply BitVec.eq_of_getLsbD_eq
  intro i hi
  have h4 : ¬ 12 + i < 4 := by omega
  have h12 : ¬ 12 + i < 12 := by omega
  rw [BitVec.getLsbD_extractLsb', getLsbD_word484, if_neg h4, if_neg h12]
  simp [hi]

theorem word4444_0 (x y z t : BitVec 4) : (x ++ y ++ z ++ t : Word).extractLsb' 0 4 = t := by
  apply BitVec.eq_of_getLsbD_eq
  intro i hi
  rw [BitVec.getLsbD_extractLsb', getLsbD_word4444]
  simp [hi]

theorem word4444_4 (x y z t : BitVec 4) : (x ++ y ++ z ++ t : Word).extractLsb' 4 4 = z := by
  apply BitVec.eq_of_getLsbD_eq
  intro i hi
  have h4 : ¬ 4 + i < 4 := by omega
  have h8 : 4 + i < 8 := by omega
  rw [BitVec.getLsbD_extractLsb', getLsbD_word4444, if_neg h4, if_pos h8]
  simp [hi]

theorem word4444_8 (x y z t : BitVec 4) : (x ++ y ++ z ++ t : Word).extractLsb' 8 4 = y := by
  apply BitVec.eq_of_getLsbD_eq
  intro i hi
  have h4 : ¬ 8 + i < 4 := by omega
  have h8 : ¬ 8 + i < 8 := by omega
  have h12 : 8 + i < 12 := by omega
  rw [BitVec.getLsbD_extractLsb', getLsbD_word4444, if_neg h4, if_neg h8, if_pos h12]
  simp [hi]

theorem word4444_12 (x y z t : BitVec 4) : (x ++ y ++ z ++ t : Word).extractLsb' 12 4 = x := by
  apply BitVec.eq_of_getLsbD_eq
  intro i hi
  have h4 : ¬ 12 + i < 4 := by omega
  have h8 : ¬ 12 + i < 8 := by omega
  have h12 : ¬ 12 + i < 12 := by omega
  rw [BitVec.getLsbD_extractLsb', getLsbD_word4444, if_neg h4, if_neg h8, if_neg h12]
  simp [hi]

/-- Bit 0 says whether the number is odd. -/
theorem isOdd_iff (v : Word) : isOdd v = true ↔ v.toNat % 2 = 1 := by
  simp [isOdd, BitVec.getLsbD, Nat.testBit_zero]

theorem isOdd_eq_false (v : Word) : isOdd v = false ↔ v.toNat % 2 = 0 := by
  rw [← Bool.not_eq_true, isOdd_iff]
  omega

/-- A 4-bit field with a known value. -/
theorem nibble_eq {x : BitVec 4} {n : Nat} (hn : n < 16) (h : x.toNat = n) : x = BitVec.ofNat 4 n := by
  apply BitVec.eq_of_toNat_eq
  rw [h, BitVec.toNat_ofNat, Nat.mod_eq_of_lt hn]

@[simp] theorem opField_encodeI8 (op : BitVec 4) (d : RegNum) (imm8 : Byte) : opField (encodeI8 op d imm8) = op :=
  word484_low _ _ _

@[simp] theorem immField_encodeI8 (op : BitVec 4) (d : RegNum) (imm8 : Byte) :
    immField (encodeI8 op d imm8) = imm8 := word484_mid _ _ _

@[simp] theorem dField_encodeI8 (op : BitVec 4) (d : RegNum) (imm8 : Byte) : dField (encodeI8 op d imm8) = d :=
  congrArg BitVec.toFin (word484_high _ _ _)

@[simp] theorem opField_encodeB (cc : BitVec 4) (imm8 : Byte) : opField (encodeB cc imm8) = 0xE#4 :=
  word484_low _ _ _

@[simp] theorem immField_encodeB (cc : BitVec 4) (imm8 : Byte) : immField (encodeB cc imm8) = imm8 :=
  word484_mid _ _ _

@[simp] theorem ccField_encodeB (cc : BitVec 4) (imm8 : Byte) : ccField (encodeB cc imm8) = cc :=
  word484_high _ _ _

@[simp] theorem opField_encodeR3 (op : BitVec 4) (d a b : RegNum) : opField (encodeR3 op d a b) = op :=
  word4444_0 _ _ _ _

@[simp] theorem bField_encodeR3 (op : BitVec 4) (d a b : RegNum) : bField (encodeR3 op d a b) = b :=
  congrArg BitVec.toFin (word4444_4 _ _ _ _)

@[simp] theorem aField_encodeR3 (op : BitVec 4) (d a b : RegNum) : aField (encodeR3 op d a b) = a :=
  congrArg BitVec.toFin (word4444_8 _ _ _ _)

@[simp] theorem dField_encodeR3 (op : BitVec 4) (d a b : RegNum) : dField (encodeR3 op d a b) = d :=
  congrArg BitVec.toFin (word4444_12 _ _ _ _)

@[simp] theorem opField_encodeR2 (sub : BitVec 4) (d a : RegNum) : opField (encodeR2 sub d a) = 0xF#4 :=
  word4444_0 _ _ _ _

@[simp] theorem subField_encodeR2 (sub : BitVec 4) (d a : RegNum) : subField (encodeR2 sub d a) = sub :=
  word4444_4 _ _ _ _

@[simp] theorem aField_encodeR2 (sub : BitVec 4) (d a : RegNum) : aField (encodeR2 sub d a) = a :=
  congrArg BitVec.toFin (word4444_8 _ _ _ _)

@[simp] theorem dField_encodeR2 (sub : BitVec 4) (d a : RegNum) : dField (encodeR2 sub d a) = d :=
  congrArg BitVec.toFin (word4444_12 _ _ _ _)

/-- A word is the join of its fields, in the I8 and B layout. -/
theorem word484_fields (w : Word) : w.extractLsb' 12 4 ++ w.extractLsb' 4 8 ++ w.extractLsb' 0 4 = w := by
  apply BitVec.eq_of_getLsbD_eq
  intro i hi
  refine (getLsbD_word484 _ _ _ i).trans ?_
  by_cases h4 : i < 4
  · simp [h4]
  · by_cases h12 : i < 12
    · have h8 : i - 4 < 8 := by omega
      have hs : 4 + (i - 4) = i := by omega
      simp [h4, h12, h8, hs]
    · have h8 : i - 12 < 4 := by omega
      have hs : 12 + (i - 12) = i := by omega
      simp [h4, h12, h8, hs]

/-- A word is the join of its fields, in the R3 and R2 layout. -/
theorem word4444_fields (w : Word) :
    w.extractLsb' 12 4 ++ w.extractLsb' 8 4 ++ w.extractLsb' 4 4 ++ w.extractLsb' 0 4 = w := by
  apply BitVec.eq_of_getLsbD_eq
  intro i hi
  refine (getLsbD_word4444 _ _ _ _ i).trans ?_
  by_cases h4 : i < 4
  · simp [h4]
  · by_cases h8 : i < 8
    · have hl : i - 4 < 4 := by omega
      have hs : 4 + (i - 4) = i := by omega
      simp [h4, h8, hl, hs]
    · by_cases h12 : i < 12
      · have hl : i - 8 < 4 := by omega
        have hs : 8 + (i - 8) = i := by omega
        simp [h4, h8, h12, hl, hs]
      · have hl : i - 12 < 4 := by omega
        have hs : 12 + (i - 12) = i := by omega
        simp [h4, h8, h12, hl, hs]

/-- A word is the join of its two bytes. -/
@[simp] theorem joinBytes_high_low (v : Word) : joinBytes (highByte v) (lowByte v) = v := by
  apply BitVec.eq_of_getLsbD_eq
  intro i hi
  have h1 : (joinBytes (highByte v) (lowByte v)).getLsbD i =
      if i < 8 then (lowByte v).getLsbD i else (highByte v).getLsbD (i - 8) := BitVec.getLsbD_append
  rw [h1]
  by_cases h8 : i < 8
  · simp [h8, lowByte]
  · have hl : i - 8 < 8 := by omega
    have hs : 8 + (i - 8) = i := by omega
    simp [h8, highByte, hl, hs]

@[simp] theorem highByte_joinBytes (high low : Byte) : highByte (joinBytes high low) = high := by
  apply BitVec.eq_of_getLsbD_eq
  intro i hi
  have h1 : (joinBytes high low).getLsbD (8 + i) = if 8 + i < 8 then low.getLsbD (8 + i) else high.getLsbD (8 + i - 8) :=
    BitVec.getLsbD_append
  rw [highByte, BitVec.getLsbD_extractLsb', h1]
  simp [hi]

@[simp] theorem lowByte_joinBytes (high low : Byte) : lowByte (joinBytes high low) = low := by
  apply BitVec.eq_of_getLsbD_eq
  intro i hi
  have h1 : (joinBytes high low).getLsbD (0 + i) = if 0 + i < 8 then low.getLsbD (0 + i) else high.getLsbD (0 + i - 8) :=
    BitVec.getLsbD_append
  rw [lowByte, BitVec.getLsbD_extractLsb', h1]
  simp [hi]

/-- Laying a word out in memory and reading it back gives the word, under either byte order (20_memory.md R34). -/
@[simp] theorem wordOfBytes_bytes (e : Endian) (v : Word) : wordOfBytes e (firstByte e v) (secondByte e v) = v := by
  cases e <;> simp [wordOfBytes, firstByte, secondByte]

@[simp] theorem firstByte_wordOfBytes (e : Endian) (x y : Byte) : firstByte e (wordOfBytes e x y) = x := by
  cases e <;> simp [wordOfBytes, firstByte]

@[simp] theorem secondByte_wordOfBytes (e : Endian) (x y : Byte) : secondByte e (wordOfBytes e x y) = y := by
  cases e <;> simp [wordOfBytes, secondByte]

end Sys2Proof
end

