-- ==== Sys2Proof/Laws/Memory.lean ====
section
/-! SUPPORT. The laws of memory: read after write, and every operation keeps the canonical form. -/

namespace Sys2Proof.Machine

@[simp] theorem Memory.read_nil (addr : Nat) : Memory.read [] addr = Memory.unlisted := rfl

theorem Memory.read_erase_self (m : Memory) (addr : Nat) :
    Memory.read (Memory.erase m addr) addr = Memory.unlisted := by
  induction m with
  | nil => rfl
  | cons cell rest ih =>
    by_cases h : cell.1 = addr
    · simpa [Memory.erase, List.filter_cons, h] using ih
    · simpa [Memory.erase, List.filter_cons, h, Memory.read] using ih

theorem Memory.read_erase_ne (m : Memory) {addr other : Nat} (h : other ≠ addr) :
    Memory.read (Memory.erase m addr) other = Memory.read m other := by
  induction m with
  | nil => rfl
  | cons cell rest ih =>
    by_cases hc : cell.1 = addr
    · have : ¬ addr = other := fun e => h e.symm
      simpa [Memory.erase, List.filter_cons, hc, Memory.read, this] using ih
    · by_cases ho : cell.1 = other
      · simp [Memory.erase, Memory.read, ho, h]
      · simpa [Memory.erase, List.filter_cons, hc, Memory.read, ho] using ih

theorem Memory.read_insert_self (m : Memory) (addr : Nat) (v : Byte) (h : ∀ cell ∈ m, cell.1 ≠ addr) :
    Memory.read (Memory.insert addr v m) addr = v := by
  induction m with
  | nil => simp [Memory.insert, Memory.read]
  | cons cell rest ih =>
    have hc : cell.1 ≠ addr := h cell (by simp)
    have hr := ih fun c hc => h c (by simp [hc])
    by_cases hlt : cell.1 < addr
    · simp [Memory.insert, hlt, Memory.read, hc, hr]
    · simp [Memory.insert, hlt, Memory.read]

theorem Memory.read_insert_ne (m : Memory) {addr other : Nat} (v : Byte) (h : other ≠ addr) :
    Memory.read (Memory.insert addr v m) other = Memory.read m other := by
  have h' : ¬ addr = other := fun e => h e.symm
  induction m with
  | nil => simp [Memory.insert, Memory.read, h']
  | cons cell rest ih =>
    by_cases hlt : cell.1 < addr
    · simp [Memory.insert, hlt, Memory.read, ih]
    · simp [Memory.insert, hlt, Memory.read, h']

theorem Memory.erase_no_addr (m : Memory) (addr : Nat) : ∀ cell ∈ Memory.erase m addr, cell.1 ≠ addr := by
  intro cell h
  simpa using (List.mem_filter.mp h).2

/-- A read after a write to the same address gives the value written, in every memory. -/
@[simp] theorem Memory.read_write_self (m : Memory) (addr : Nat) (v : Byte) :
    Memory.read (Memory.write m addr v) addr = v := by
  unfold Memory.write
  split
  · rename_i h
    rw [h, Memory.read_erase_self]
  · exact Memory.read_insert_self _ _ _ (Memory.erase_no_addr m addr)

/-- A write leaves every other address alone, in every memory. -/
theorem Memory.read_write_ne (m : Memory) {addr other : Nat} (v : Byte) (h : other ≠ addr) :
    Memory.read (Memory.write m addr v) other = Memory.read m other := by
  unfold Memory.write
  split
  · exact Memory.read_erase_ne m h
  · rw [Memory.read_insert_ne _ _ h, Memory.read_erase_ne m h]

/-- The read of any address after a write, in one equation. -/
theorem Memory.read_write (m : Memory) (addr other : Nat) (v : Byte) :
    Memory.read (Memory.write m addr v) other = if other = addr then v else Memory.read m other := by
  split
  · rename_i h
    rw [h, Memory.read_write_self]
  · rename_i h
    exact Memory.read_write_ne m v h

theorem Memory.wf_nil : Memory.wf [] = true := rfl

theorem Memory.wf_cons {cell : Host.Cell} {rest : Memory} : Memory.wf (cell :: rest) = true ↔
    cell.1 < 65536 ∧ cell.2 ≠ Memory.unlisted ∧ (∀ other ∈ rest, cell.1 < other.1) ∧ Memory.wf rest = true := by
  simp [Memory.wf, and_assoc]

theorem Memory.erase_wf {m : Memory} (addr : Nat) (h : Memory.wf m = true) : Memory.wf (Memory.erase m addr) = true := by
  induction m with
  | nil => rfl
  | cons cell rest ih =>
    obtain ⟨hlt, hv, hrise, hrest⟩ := Memory.wf_cons.mp h
    by_cases hc : cell.1 = addr
    · simpa [Memory.erase, List.filter_cons, hc] using ih hrest
    · have he : Memory.erase (cell :: rest) addr = cell :: Memory.erase rest addr := by
        simp [Memory.erase, hc]
      rw [he, Memory.wf_cons]
      exact ⟨hlt, hv, fun o ho => hrise o (List.mem_filter.mp ho).1, ih hrest⟩

theorem Memory.mem_insert {m : Memory} {addr : Nat} {v : Byte} {cell : Host.Cell}
    (h : cell ∈ Memory.insert addr v m) : cell = (addr, v) ∨ cell ∈ m := by
  induction m with
  | nil => simpa [Memory.insert] using h
  | cons c rest ih =>
    by_cases hlt : c.1 < addr
    · simp only [Memory.insert, hlt, if_true, List.mem_cons] at h
      rcases h with h | h
      · exact Or.inr (by simp [h])
      · exact (ih h).imp id (by simp +contextual)
    · simpa [Memory.insert, hlt] using h

theorem Memory.insert_wf {m : Memory} {addr : Nat} {v : Byte} (h : Memory.wf m = true) (ha : addr < 65536)
    (hv : v ≠ Memory.unlisted) (hn : ∀ cell ∈ m, cell.1 ≠ addr) : Memory.wf (Memory.insert addr v m) = true := by
  induction m with
  | nil => exact Memory.wf_cons.mpr ⟨ha, hv, by simp, rfl⟩
  | cons cell rest ih =>
    obtain ⟨hlt, hcv, hrise, hrest⟩ := Memory.wf_cons.mp h
    by_cases hc : cell.1 < addr
    · have hi := ih hrest fun c hc => hn c (by simp [hc])
      simp only [Memory.insert, hc, if_true]
      refine Memory.wf_cons.mpr ⟨hlt, hcv, fun o ho => ?_, hi⟩
      rcases Memory.mem_insert ho with rfl | ho
      · exact hc
      · exact hrise o ho
    · have hne : cell.1 ≠ addr := hn cell (by simp)
      simp only [Memory.insert, hc, if_false]
      refine Memory.wf_cons.mpr ⟨ha, hv, fun o ho => ?_, h⟩
      rcases List.mem_cons.mp ho with rfl | ho
      · show addr < o.1
        omega
      · have := hrise o ho
        show addr < o.1
        omega

/-- A write inside the address space keeps the canonical form. -/
theorem Memory.write_wf {m : Memory} {addr : Nat} (v : Byte) (h : Memory.wf m = true) (ha : addr < 65536) :
    Memory.wf (Memory.write m addr v) = true := by
  unfold Memory.write
  split
  · exact Memory.erase_wf addr h
  · rename_i hv
    exact Memory.insert_wf (Memory.erase_wf addr h) ha hv (Memory.erase_no_addr m addr)

end Sys2Proof.Machine
end

