-- ==== Sys2Proof/Laws/State.lean ====
section
/-! SUPPORT. What each update of the state leaves in each field: one lemma per field per update. -/

namespace Sys2Proof.Machine

@[simp] theorem State.setPc_regs (s : State) (v : Word) : (s.setPc v).regs = s.regs := rfl
@[simp] theorem State.setPc_pc (s : State) (v : Word) : (s.setPc v).pc = v := rfl
@[simp] theorem State.setPc_flags (s : State) (v : Word) : (s.setPc v).flags = s.flags := rfl
@[simp] theorem State.setPc_mem (s : State) (v : Word) : (s.setPc v).mem = s.mem := rfl
@[simp] theorem State.setPc_portHistory (s : State) (v : Word) : (s.setPc v).portHistory = s.portHistory := rfl
@[simp] theorem State.setPc_mark (s : State) (v : Word) : (s.setPc v).mark = s.mark := rfl
@[simp] theorem State.setPc_cfg (s : State) (v : Word) : (s.setPc v).cfg = s.cfg := rfl
@[simp] theorem State.setPc_draws (s : State) (v : Word) : (s.setPc v).draws = s.draws := rfl

@[simp] theorem State.setReg_regs (s : State) (r : RegNum) (v : Word) : (s.setReg r v).regs = s.regs.set r v := rfl
@[simp] theorem State.setReg_pc (s : State) (r : RegNum) (v : Word) : (s.setReg r v).pc = s.pc := rfl
@[simp] theorem State.setReg_flags (s : State) (r : RegNum) (v : Word) : (s.setReg r v).flags = s.flags := rfl
@[simp] theorem State.setReg_mem (s : State) (r : RegNum) (v : Word) : (s.setReg r v).mem = s.mem := rfl
@[simp] theorem State.setReg_portHistory (s : State) (r : RegNum) (v : Word) : (s.setReg r v).portHistory = s.portHistory := rfl
@[simp] theorem State.setReg_mark (s : State) (r : RegNum) (v : Word) : (s.setReg r v).mark = s.mark := rfl
@[simp] theorem State.setReg_cfg (s : State) (r : RegNum) (v : Word) : (s.setReg r v).cfg = s.cfg := rfl
@[simp] theorem State.setReg_draws (s : State) (r : RegNum) (v : Word) : (s.setReg r v).draws = s.draws := rfl

@[simp] theorem State.setFlags_regs (s : State) (f : Flags) : (s.setFlags f).regs = s.regs := rfl
@[simp] theorem State.setFlags_pc (s : State) (f : Flags) : (s.setFlags f).pc = s.pc := rfl
@[simp] theorem State.setFlags_flags (s : State) (f : Flags) : (s.setFlags f).flags = f := rfl
@[simp] theorem State.setFlags_mem (s : State) (f : Flags) : (s.setFlags f).mem = s.mem := rfl
@[simp] theorem State.setFlags_portHistory (s : State) (f : Flags) : (s.setFlags f).portHistory = s.portHistory := rfl
@[simp] theorem State.setFlags_mark (s : State) (f : Flags) : (s.setFlags f).mark = s.mark := rfl
@[simp] theorem State.setFlags_cfg (s : State) (f : Flags) : (s.setFlags f).cfg = s.cfg := rfl
@[simp] theorem State.setFlags_draws (s : State) (f : Flags) : (s.setFlags f).draws = s.draws := rfl

@[simp] theorem State.setMem_regs (s : State) (m : Memory) : (s.setMem m).regs = s.regs := rfl
@[simp] theorem State.setMem_pc (s : State) (m : Memory) : (s.setMem m).pc = s.pc := rfl
@[simp] theorem State.setMem_flags (s : State) (m : Memory) : (s.setMem m).flags = s.flags := rfl
@[simp] theorem State.setMem_mem (s : State) (m : Memory) : (s.setMem m).mem = m := rfl
@[simp] theorem State.setMem_portHistory (s : State) (m : Memory) : (s.setMem m).portHistory = s.portHistory := rfl
@[simp] theorem State.setMem_mark (s : State) (m : Memory) : (s.setMem m).mark = s.mark := rfl
@[simp] theorem State.setMem_cfg (s : State) (m : Memory) : (s.setMem m).cfg = s.cfg := rfl
@[simp] theorem State.setMem_draws (s : State) (m : Memory) : (s.setMem m).draws = s.draws := rfl

@[simp] theorem State.logPortRead_regs (s : State) (p : Word) : (s.logPortRead p).regs = s.regs := rfl
@[simp] theorem State.logPortRead_pc (s : State) (p : Word) : (s.logPortRead p).pc = s.pc := rfl
@[simp] theorem State.logPortRead_flags (s : State) (p : Word) : (s.logPortRead p).flags = s.flags := rfl
@[simp] theorem State.logPortRead_mem (s : State) (p : Word) : (s.logPortRead p).mem = s.mem := rfl
@[simp] theorem State.logPortRead_portHistory (s : State) (p : Word) : (s.logPortRead p).portHistory = s.portHistory ++ [.read p] := rfl
@[simp] theorem State.logPortRead_mark (s : State) (p : Word) : (s.logPortRead p).mark = s.mark := rfl
@[simp] theorem State.logPortRead_cfg (s : State) (p : Word) : (s.logPortRead p).cfg = s.cfg := rfl
@[simp] theorem State.logPortRead_draws (s : State) (p : Word) : (s.logPortRead p).draws = s.draws := rfl

@[simp] theorem State.setMark_regs (s : State) (m : Mark) : (s.setMark m).regs = s.regs := rfl
@[simp] theorem State.setMark_pc (s : State) (m : Mark) : (s.setMark m).pc = s.pc := rfl
@[simp] theorem State.setMark_flags (s : State) (m : Mark) : (s.setMark m).flags = s.flags := rfl
@[simp] theorem State.setMark_mem (s : State) (m : Mark) : (s.setMark m).mem = s.mem := rfl
@[simp] theorem State.setMark_portHistory (s : State) (m : Mark) : (s.setMark m).portHistory = s.portHistory := rfl
@[simp] theorem State.setMark_mark (s : State) (m : Mark) : (s.setMark m).mark = some m := rfl
@[simp] theorem State.setMark_cfg (s : State) (m : Mark) : (s.setMark m).cfg = s.cfg := rfl
@[simp] theorem State.setMark_draws (s : State) (m : Mark) : (s.setMark m).draws = s.draws := rfl

@[simp] theorem State.setDraws_regs (s : State) (k : Nat) : (s.setDraws k).regs = s.regs := rfl
@[simp] theorem State.setDraws_pc (s : State) (k : Nat) : (s.setDraws k).pc = s.pc := rfl
@[simp] theorem State.setDraws_flags (s : State) (k : Nat) : (s.setDraws k).flags = s.flags := rfl
@[simp] theorem State.setDraws_mem (s : State) (k : Nat) : (s.setDraws k).mem = s.mem := rfl
@[simp] theorem State.setDraws_portHistory (s : State) (k : Nat) : (s.setDraws k).portHistory = s.portHistory := rfl
@[simp] theorem State.setDraws_mark (s : State) (k : Nat) : (s.setDraws k).mark = s.mark := rfl
@[simp] theorem State.setDraws_cfg (s : State) (k : Nat) : (s.setDraws k).cfg = s.cfg := rfl
@[simp] theorem State.setDraws_draws (s : State) (k : Nat) : (s.setDraws k).draws = k := rfl

@[simp] theorem State.drew_regs (s : State) (k : Nat) : (s.drew k).regs = s.regs := rfl
@[simp] theorem State.drew_pc (s : State) (k : Nat) : (s.drew k).pc = s.pc := rfl
@[simp] theorem State.drew_flags (s : State) (k : Nat) : (s.drew k).flags = s.flags := rfl
@[simp] theorem State.drew_mem (s : State) (k : Nat) : (s.drew k).mem = s.mem := rfl
@[simp] theorem State.drew_portHistory (s : State) (k : Nat) : (s.drew k).portHistory = s.portHistory := rfl
@[simp] theorem State.drew_mark (s : State) (k : Nat) : (s.drew k).mark = s.mark := rfl
@[simp] theorem State.drew_cfg (s : State) (k : Nat) : (s.drew k).cfg = s.cfg := rfl
@[simp] theorem State.drew_draws (s : State) (k : Nat) : (s.drew k).draws = s.draws + k := rfl

@[simp] theorem State.resetWith_pc (cfg : Config) : (State.resetWith cfg).pc = cfg.resetPc := rfl
@[simp] theorem State.resetWith_mem (cfg : Config) : (State.resetWith cfg).mem = [] := rfl
@[simp] theorem State.resetWith_mark (cfg : Config) : (State.resetWith cfg).mark = none := rfl
@[simp] theorem State.resetWith_portHistory (cfg : Config) : (State.resetWith cfg).portHistory = [] := rfl
@[simp] theorem State.resetWith_cfg (cfg : Config) : (State.resetWith cfg).cfg = cfg := rfl

end Sys2Proof.Machine
end

