-- ==== Sys2Proof/Laws/Operands.lean ====
section
/-! SUPPORT. When register fields are refused, and what reading and writing a register number does (10_state.md R19). -/

namespace Sys2Proof.Machine

open Sys2Proof.Safety

/-- The refusal of register fields says exactly this. -/
theorem operandRefusal_none {cfg : Config} {w : Option Word} {named guarded never : List RegNum} :
    operandRefusal cfg w named guarded never = none ↔
      (∀ r ∈ named, r ∉ cfg.reservedRegs) ∧ cfg.pcRegnum ∉ never ∧
        (cfg.admitPcOperands = true ∨ cfg.pcRegnum ∉ guarded) := by
  unfold operandRefusal
  by_cases h1 : ∃ r ∈ named, r ∈ cfg.reservedRegs
  · have h1' : ¬ ∀ r ∈ named, r ∉ cfg.reservedRegs := by push Not; exact h1
    simp [h1, h1']
  · have h1' : ∀ r ∈ named, r ∉ cfg.reservedRegs := by push Not at h1; exact h1
    by_cases h2 : cfg.pcRegnum ∈ never
    · simp [h1, h2]
    · cases h3 : cfg.admitPcOperands
      · simpa [h1, h2] using fun _ => h1'
      · simpa [h1, h2] using h1'

/-- `withFields` either refuses or goes on. -/
theorem withFields_cases (i : Instr) (named guarded never : List RegNum) (s : State) (k : Result) :
    ((∃ r, withFields i named guarded never s k = .refused r) ∧
      operandRefusal s.cfg (encode s.cfg i) named guarded never ≠ none) ∨
    (withFields i named guarded never s k = k ∧
      operandRefusal s.cfg (encode s.cfg i) named guarded never = none) := by
  unfold withFields
  cases h : operandRefusal s.cfg (encode s.cfg i) named guarded never
  · exact .inr ⟨rfl, rfl⟩
  · exact .inl ⟨⟨_, rfl⟩, by simp⟩

theorem withFields_next {i : Instr} {named guarded never : List RegNum} {s t : State} {k : Result} :
    withFields i named guarded never s k = .next t ↔
      operandRefusal s.cfg (encode s.cfg i) named guarded never = none ∧ k = .next t := by
  unfold withFields
  split <;> simp_all

theorem operandRefusal_plain {cfg : Config} {w : Option Word} {fields : List RegNum} :
    operandRefusal cfg w fields fields [] = none ↔ OperandsOk cfg fields := by
  rw [operandRefusal_none]
  have h : cfg.pcRegnum ∉ fields ↔ ∀ r ∈ fields, r ≠ cfg.pcRegnum :=
    ⟨fun h r hr e => h (e ▸ hr), fun h hp => h _ hp rfl⟩
  simp [OperandsOk, h]

theorem operandRefusal_mov {cfg : Config} {w : Option Word} {a d : RegNum} :
    operandRefusal cfg w [a, d] [a] [] = none ↔ MovOperandsOk cfg a d := by
  rw [operandRefusal_none]
  simp [MovOperandsOk, eq_comm (a := cfg.pcRegnum)]

theorem operandRefusal_call {cfg : Config} {w : Option Word} {a d : RegNum} :
    operandRefusal cfg w [a, d] [a, d] [d] = none ↔ CallOperandsOk cfg a d := by
  rw [operandRefusal_none]
  simp only [CallOperandsOk, List.mem_cons, List.not_mem_nil, or_false, forall_eq_or_imp, forall_eq,
    eq_comm (a := cfg.pcRegnum), not_or, ne_eq]
  tauto

/-- An instruction whose fields may be used goes on. -/
theorem withOperands_ok {i : Instr} {fields : List RegNum} {s : State} {k : Result}
    (h : OperandsOk s.cfg fields) : withOperands i fields s k = k := by
  rw [withOperands, withFields, operandRefusal_plain.mpr h]

/-- An instruction whose fields may not be used is refused. -/
theorem withOperands_refused {i : Instr} {fields : List RegNum} {s : State} {k : Result}
    (h : ¬ OperandsOk s.cfg fields) : ∃ r, withOperands i fields s k = .refused r := by
  rcases withFields_cases i fields fields [] s k with ⟨hr, -⟩ | ⟨-, hn⟩
  · exact hr
  · exact absurd (operandRefusal_plain.mp hn) h

theorem withOperands_next {i : Instr} {fields : List RegNum} {s t : State} {k : Result} :
    withOperands i fields s k = .next t ↔ OperandsOk s.cfg fields ∧ k = .next t := by
  rw [withOperands, withFields_next, operandRefusal_plain]

theorem readReg_pc {s : State} {r : RegNum} (h : r = s.cfg.pcRegnum) : readReg s r = s.pc + s.cfg.pcReadBias := by
  simp [readReg, h]

theorem readReg_general {s : State} {r : RegNum} (h : r ≠ s.cfg.pcRegnum) : readReg s r = s.regs[r] := by
  simp [readReg, h]

@[simp] theorem setReg_self (s : State) (r : RegNum) (v : Word) : (s.setReg r v).regs[r] = v := by simp

theorem setReg_other (s : State) {r q : RegNum} (v : Word) (h : q ≠ r) : (s.setReg r v).regs[q] = s.regs[q] := by
  have h' : r.val ≠ q.val := fun e => h (Fin.ext e.symm)
  simp [h']

@[simp] theorem writeReg_flags (s : State) (r : RegNum) (v : Word) : (writeReg s r v).flags = s.flags := by
  unfold writeReg; split <;> rfl

@[simp] theorem writeReg_mem (s : State) (r : RegNum) (v : Word) : (writeReg s r v).mem = s.mem := by
  unfold writeReg; split <;> rfl

@[simp] theorem writeReg_portHistory (s : State) (r : RegNum) (v : Word) :
    (writeReg s r v).portHistory = s.portHistory := by
  unfold writeReg; split <;> rfl

@[simp] theorem writeReg_mark (s : State) (r : RegNum) (v : Word) : (writeReg s r v).mark = s.mark := by
  unfold writeReg; split <;> rfl

@[simp] theorem writeReg_cfg (s : State) (r : RegNum) (v : Word) : (writeReg s r v).cfg = s.cfg := by
  unfold writeReg; split <;> rfl

@[simp] theorem writeReg_draws (s : State) (r : RegNum) (v : Word) : (writeReg s r v).draws = s.draws := by
  unfold writeReg; split <;> rfl

end Sys2Proof.Machine
end

