-- ==== Sys2Proof/Laws/Ops.lean ====
section
/-! SUPPORT. What each shared operation can do, said once: pc and result writes, access checks, memory words, fetch. -/

namespace Sys2Proof.Machine

open Sys2Proof.Safety

@[simp] theorem advance_pc (s : State) : (advance s).pc = s.pc + 2 := rfl
@[simp] theorem advance_regs (s : State) : (advance s).regs = s.regs := rfl
@[simp] theorem advance_flags (s : State) : (advance s).flags = s.flags := rfl
@[simp] theorem advance_mem (s : State) : (advance s).mem = s.mem := rfl
@[simp] theorem advance_portHistory (s : State) : (advance s).portHistory = s.portHistory := rfl
@[simp] theorem advance_mark (s : State) : (advance s).mark = s.mark := rfl
@[simp] theorem advance_cfg (s : State) : (advance s).cfg = s.cfg := rfl
@[simp] theorem advance_draws (s : State) : (advance s).draws = s.draws := rfl

@[simp] theorem writeResult_flags (s : State) (d : RegNum) (v : Word) (f : Flags) :
    (writeResult s d v f).flags = f := by simp [writeResult]

@[simp] theorem writeResult_mem (s : State) (d : RegNum) (v : Word) (f : Flags) :
    (writeResult s d v f).mem = s.mem := by simp [writeResult]

@[simp] theorem writeResult_portHistory (s : State) (d : RegNum) (v : Word) (f : Flags) :
    (writeResult s d v f).portHistory = s.portHistory := by simp [writeResult]

@[simp] theorem writeResult_mark (s : State) (d : RegNum) (v : Word) (f : Flags) :
    (writeResult s d v f).mark = s.mark := by simp [writeResult]

@[simp] theorem writeResult_cfg (s : State) (d : RegNum) (v : Word) (f : Flags) :
    (writeResult s d v f).cfg = s.cfg := by simp [writeResult]

@[simp] theorem writeResult_draws (s : State) (d : RegNum) (v : Word) (f : Flags) :
    (writeResult s d v f).draws = s.draws := by simp [writeResult]

/-- A result write changes one register, or pc where rD names PC. -/
theorem writeResult_wroteReg (s : State) (d : RegNum) (v : Word) (f : Flags) :
    WroteReg s (writeResult s d v f) d v := by
  constructor
  · intro h
    simp [writeResult, writeReg, h]
  · intro h
    have hw : writeResult s d v f = ((advance s).setFlags f).setReg d v := by simp [writeResult, writeReg, h]
    rw [hw]
    exact ⟨rfl, setReg_self _ _ _, fun r hr => setReg_other _ _ hr⟩

/-- A result write to a register that is not PC. -/
theorem writeResult_wroteDest {s : State} {d : RegNum} (v : Word) (f : Flags) (h : d ≠ s.cfg.pcRegnum) :
    WroteDest s (writeResult s d v f) d v := ((writeResult_wroteReg s d v f).2 h).2

/-- `WroteDest` reads only the registers. -/
theorem wroteDest_congr {s t t' : State} {d : RegNum} {v : Word} (h : WroteDest s t d v)
    (hr : t'.regs = t.regs) : WroteDest s t' d v := by
  simpa only [WroteDest, hr] using h

/-- `WroteReg` reads only pc, the registers and the number of PC. -/
theorem wroteReg_congr {s t t' : State} {d : RegNum} {v : Word} (h : WroteReg s t d v) (hp : t'.pc = t.pc)
    (hr : t'.regs = t.regs) : WroteReg s t' d v := by
  simpa only [WroteReg, hp, hr] using h

/-- A checked access either faults or goes on. -/
theorem withAccess_next {f : Option Fault} {k : Result} {t : State} :
    withAccess f k = .next t ↔ f = none ∧ k = .next t := by
  cases f <;> simp [withAccess]

@[simp] theorem withAccess_none (k : Result) : withAccess none k = k := rfl
@[simp] theorem withAccess_some (f : Fault) (k : Result) : withAccess (some f) k = .fault f := rfl

theorem byteFault_none {cfg : Config} {addr : Word} {kind : AccessKind} :
    byteFault cfg addr kind = none ↔ admitted cfg addr kind = true := by simp [byteFault]

theorem wordFault_none {cfg : Config} {addr : Word} {kind : AccessKind} :
    wordFault cfg addr kind = none ↔ WordAdmitted cfg addr kind := by
  simp [wordFault, byteFault_none]

theorem alignmentFault_none {ea : Word} : alignmentFault ea = none ↔ isOdd ea = false := by
  simp [alignmentFault]

@[simp] theorem writeByte_regs (s : State) (a : Word) (v : Byte) : (writeByte s a v).regs = s.regs := rfl
@[simp] theorem writeByte_pc (s : State) (a : Word) (v : Byte) : (writeByte s a v).pc = s.pc := rfl
@[simp] theorem writeByte_flags (s : State) (a : Word) (v : Byte) : (writeByte s a v).flags = s.flags := rfl
@[simp] theorem writeByte_portHistory (s : State) (a : Word) (v : Byte) :
    (writeByte s a v).portHistory = s.portHistory := rfl
@[simp] theorem writeByte_mark (s : State) (a : Word) (v : Byte) : (writeByte s a v).mark = s.mark := rfl
@[simp] theorem writeByte_cfg (s : State) (a : Word) (v : Byte) : (writeByte s a v).cfg = s.cfg := rfl
@[simp] theorem writeByte_draws (s : State) (a : Word) (v : Byte) : (writeByte s a v).draws = s.draws := rfl
@[simp] theorem writeByte_mem (s : State) (a : Word) (v : Byte) :
    (writeByte s a v).mem = Memory.write s.mem a.toNat v := rfl
@[simp] theorem writeWord_regs (s : State) (a v : Word) : (writeWord s a v).regs = s.regs := rfl
@[simp] theorem writeWord_pc (s : State) (a v : Word) : (writeWord s a v).pc = s.pc := rfl
@[simp] theorem writeWord_flags (s : State) (a v : Word) : (writeWord s a v).flags = s.flags := rfl
@[simp] theorem writeWord_portHistory (s : State) (a v : Word) : (writeWord s a v).portHistory = s.portHistory := rfl
@[simp] theorem writeWord_mark (s : State) (a v : Word) : (writeWord s a v).mark = s.mark := rfl
@[simp] theorem writeWord_cfg (s : State) (a v : Word) : (writeWord s a v).cfg = s.cfg := rfl
@[simp] theorem writeWord_draws (s : State) (a v : Word) : (writeWord s a v).draws = s.draws := rfl

/-- Every byte after a word write. -/
theorem writeWord_read (s : State) (a v : Word) (addr : Nat) :
    Memory.read (writeWord s a v).mem addr =
      if addr = (a + 1).toNat then secondByte s.cfg.endian v
      else if addr = a.toNat then firstByte s.cfg.endian v
      else Memory.read s.mem addr := by
  show Memory.read (Memory.write (Memory.write s.mem a.toNat _) (a + 1).toNat _) addr = _
  rw [Memory.read_write, Memory.read_write]

/-- The two addresses of a word are different, wherever it lies. -/
theorem succ_toNat_ne (a : Word) : (a + 1).toNat ≠ a.toNat := by
  intro h
  have : a + 1 = a := BitVec.eq_of_toNat_eq h
  bv_omega

/-- A word written and read back at the same address is the word written, under either byte order. -/
@[simp] theorem readWord_writeWord (s : State) (a v : Word) : readWord (writeWord s a v) a = v := by
  have h1 : readByte (writeWord s a v) a = firstByte s.cfg.endian v := by
    rw [readByte, writeWord_read, if_neg (succ_toNat_ne a).symm, if_pos rfl]
  have h2 : readByte (writeWord s a v) (a + 1) = secondByte s.cfg.endian v := by
    rw [readByte, writeWord_read, if_pos rfl]
  rw [readWord, h1, h2]
  exact wordOfBytes_bytes _ _

/-- A byte write keeps the canonical form of memory. -/
theorem writeByte_wf {s : State} (a : Word) (v : Byte) (h : Memory.wf s.mem = true) :
    Memory.wf (writeByte s a v).mem = true := Memory.write_wf v h a.isLt

/-- A word write keeps the canonical form of memory. -/
theorem writeWord_wf {s : State} (a v : Word) (h : Memory.wf s.mem = true) :
    Memory.wf (writeWord s a v).mem = true := writeByte_wf _ _ (writeByte_wf _ _ h)

/-- A fetch that succeeds reads the word at an even, admitted pc. -/
theorem fetchWord_ok {s : State} {w : Word} :
    fetchWord s = .ok w ↔ isOdd s.pc = false ∧ WordAdmitted s.cfg s.pc .fetch ∧ readWord s s.pc = w := by
  unfold fetchWord
  cases hp : isOdd s.pc
  · cases hf : wordFault s.cfg s.pc .fetch
    · simpa using fun _ => wordFault_none.mp hf
    · have : ¬ WordAdmitted s.cfg s.pc .fetch := fun h => by simp [wordFault_none.mpr h] at hf
      simp [this]
  · simp

/-- A word that decodes to nothing answers no next state. -/
theorem decodeFailure_not_next (s : State) (w : Word) (e : DecodeError) (t : State) : decodeFailure s w e ≠ .next t := by
  cases e <;> simp [decodeFailure, raiseInvalidInstruction]

/-- A marked state answers no next state. -/
theorem markedOutcome_not_next (m : Mark) (t : State) : markedOutcome m ≠ .next t := by
  cases m <;> simp [markedOutcome]

end Sys2Proof.Machine
end

