-- ==== Sys2Proof/Laws/PerInstr.lean ====
section
/-! SUPPORT. Per instruction: every word of an instruction carries the fixed bits that spec/opcode_table.json gives its row. -/

namespace Sys2Proof.Laws.TableRow

/-- The low four bits of the row (`match` under `mask`, 30_encoding.md R56). -/
def op : Instr → BitVec 4
  | .ldim _ _ => 0x0
  | .ldimh _ _ => 0x1
  | .ld8 _ _ _ => 0x2
  | .ld16 _ _ _ => 0x3
  | .str8 _ _ _ => 0x4
  | .str16 _ _ _ => 0x5
  | .add _ _ _ => 0x6
  | .adc _ _ _ => 0x7
  | .and _ _ _ => 0x8
  | .or _ _ _ => 0x9
  | .xor _ _ _ => 0xA
  | .lsl _ _ _ => 0xB
  | .lsr _ _ _ => 0xC
  | .asr _ _ _ => 0xD
  | .bcc _ _ => 0xE
  | .mov _ _ | .neg _ _ | .not _ _ | .cmp _ _ | .call _ _ | .swap _ _ | .inPort _ _ => 0xF

/-- The sub-opcode of the row, for the $F group (R57, R121). -/
def sub (cfg : Config) : Instr → Option (BitVec 4)
  | .mov _ _ => some 0x0
  | .neg _ _ => some 0x1
  | .not _ _ => some 0x2
  | .cmp _ _ => some 0x3
  | .call _ _ => some 0x4
  | .swap _ _ => some 0x5
  | .inPort _ _ => cfg.inSubop
  | .ldim _ _ | .ldimh _ _ => none
  | .ld8 _ _ _ | .ld16 _ _ _ | .str8 _ _ _ | .str16 _ _ _ => none
  | .add _ _ _ | .adc _ _ _ | .and _ _ _ | .or _ _ _ | .xor _ _ _ => none
  | .lsl _ _ _ | .lsr _ _ _ | .asr _ _ _ => none
  | .bcc _ _ => none

/-- Every word of the instruction has the fixed bits of its row. -/
def Statement (i : Instr) : Prop :=
  ∀ cfg w, encode cfg i = some w → opField w = op i ∧ ∀ n, sub cfg i = some n → subField w = n

theorem ldim (imm8 : Byte) (d : RegNum) : Statement (.ldim imm8 d) := by rintro cfg w ⟨⟩; simp [op, sub]
theorem ldimh (imm8 : Byte) (d : RegNum) : Statement (.ldimh imm8 d) := by rintro cfg w ⟨⟩; simp [op, sub]
theorem ld8 (a b d : RegNum) : Statement (.ld8 a b d) := by rintro cfg w ⟨⟩; simp [op, sub]
theorem ld16 (a b d : RegNum) : Statement (.ld16 a b d) := by rintro cfg w ⟨⟩; simp [op, sub]
theorem str8 (a b d : RegNum) : Statement (.str8 a b d) := by rintro cfg w ⟨⟩; simp [op, sub]
theorem str16 (a b d : RegNum) : Statement (.str16 a b d) := by rintro cfg w ⟨⟩; simp [op, sub]
theorem add (a b d : RegNum) : Statement (.add a b d) := by rintro cfg w ⟨⟩; simp [op, sub]
theorem adc (a b d : RegNum) : Statement (.adc a b d) := by rintro cfg w ⟨⟩; simp [op, sub]
theorem and (a b d : RegNum) : Statement (.and a b d) := by rintro cfg w ⟨⟩; simp [op, sub]
theorem or (a b d : RegNum) : Statement (.or a b d) := by rintro cfg w ⟨⟩; simp [op, sub]
theorem xor (a b d : RegNum) : Statement (.xor a b d) := by rintro cfg w ⟨⟩; simp [op, sub]
theorem lsl (a b d : RegNum) : Statement (.lsl a b d) := by rintro cfg w ⟨⟩; simp [op, sub]
theorem lsr (a b d : RegNum) : Statement (.lsr a b d) := by rintro cfg w ⟨⟩; simp [op, sub]
theorem asr (a b d : RegNum) : Statement (.asr a b d) := by rintro cfg w ⟨⟩; simp [op, sub]
theorem bcc (cc : BitVec 4) (imm8 : Byte) : Statement (.bcc cc imm8) := by rintro cfg w ⟨⟩; simp [op, sub]
theorem mov (a d : RegNum) : Statement (.mov a d) := by rintro cfg w ⟨⟩; simp [op, sub]
theorem neg (a d : RegNum) : Statement (.neg a d) := by rintro cfg w ⟨⟩; simp [op, sub]
theorem not (a d : RegNum) : Statement (.not a d) := by rintro cfg w ⟨⟩; simp [op, sub]
theorem cmp (a d : RegNum) : Statement (.cmp a d) := by rintro cfg w ⟨⟩; simp [op, sub]
theorem call (a d : RegNum) : Statement (.call a d) := by rintro cfg w ⟨⟩; simp [op, sub]
theorem swap (a d : RegNum) : Statement (.swap a d) := by rintro cfg w ⟨⟩; simp [op, sub]
theorem inPort (a d : RegNum) : Statement (.inPort a d) := by
  intro cfg w h
  obtain ⟨n, hn, rfl⟩ := Option.map_eq_some_iff.mp h
  simp [op, sub, hn]

end Sys2Proof.Laws.TableRow
end

