-- ==== Sys2Proof/Laws/ShiftEdge.lean ====
section
/-! SUPPORT. Every total function of the arguments of `SHIFT_EDGE` can be supplied by a configuration (43_shift.md R99). -/

namespace Sys2Proof.Machine

/-- The four arguments of `SHIFT_EDGE`. -/
abbrev EdgeArgs := ShiftKind × Word × Word × Bool

/-- A formula at its arguments, as one function. -/
def edgeAt (term : EdgeTerm) (x : EdgeArgs) : Bool := edgeBit x.1 x.2.1 x.2.2.1 x.2.2.2 term

/-- Some formula is this predicate. -/
def Expressible (g : EdgeArgs → Bool) : Prop := ∃ term, ∀ x, edgeAt term x = g x

theorem Expressible.congr {g h : EdgeArgs → Bool} (hg : Expressible g) (e : ∀ x, g x = h x) : Expressible h := by
  obtain ⟨term, ht⟩ := hg
  exact ⟨term, fun x => (ht x).trans (e x)⟩

theorem Expressible.const (b : Bool) : Expressible fun _ => b := ⟨.const b, fun _ => rfl⟩

theorem Expressible.not {g : EdgeArgs → Bool} (h : Expressible g) : Expressible fun x => !g x := by
  obtain ⟨term, ht⟩ := h
  exact ⟨.not term, fun x => congrArg Bool.not (ht x)⟩

theorem Expressible.and {g h : EdgeArgs → Bool} (hg : Expressible g) (hh : Expressible h) :
    Expressible fun x => g x && h x := by
  obtain ⟨s, hs⟩ := hg
  obtain ⟨t, ht⟩ := hh
  exact ⟨.and s t, fun x => congrArg₂ Bool.and (hs x) (ht x)⟩

theorem Expressible.or {g h : EdgeArgs → Bool} (hg : Expressible g) (hh : Expressible h) :
    Expressible fun x => g x || h x := by
  simpa using (hg.not.and hh.not).not

/-- Comparison with a fixed bit. -/
theorem Expressible.beq {g : EdgeArgs → Bool} (h : Expressible g) (b : Bool) : Expressible fun x => g x == b := by
  cases b
  · simpa using h.not
  · simpa using h

theorem Expressible.all {g : Fin 16 → EdgeArgs → Bool} (h : ∀ i, Expressible (g i)) (l : List (Fin 16)) :
    Expressible fun x => l.all fun i => g i x := by
  induction l with
  | nil => exact .const true
  | cons i rest ih => exact (h i).and ih

/-- Comparison of a word with a fixed one, from its bits. -/
theorem Expressible.word {g : EdgeArgs → Word} (h : ∀ i : Fin 16, Expressible fun x => (g x).getLsbD i) (w : Word) :
    Expressible fun x => decide (g x = w) := by
  have bits := Expressible.all (fun i => (h i).beq (w.getLsbD i)) (List.finRange 16)
  refine bits.congr fun x => ?_
  rw [Bool.eq_iff_iff]
  simp only [List.all_eq_true, List.mem_finRange, forall_const, beq_iff_eq, decide_eq_true_eq]
  exact ⟨fun e => BitVec.eq_of_getLsbD_eq fun i hi => e ⟨i, hi⟩, fun e i => e ▸ rfl⟩

/-- Comparison with one fixed tuple of arguments. -/
theorem Expressible.point (p : EdgeArgs) : Expressible fun x => decide (x = p) := by
  have kind : Expressible fun x => decide (x.1 = p.1) := ⟨.kindIs p.1, fun _ => rfl⟩
  have value : Expressible fun x => decide (x.2.1 = p.2.1) := .word (fun i => ⟨.value i, fun _ => rfl⟩) _
  have amount : Expressible fun x => decide (x.2.2.1 = p.2.2.1) := .word (fun i => ⟨.amount i, fun _ => rfl⟩) _
  have carry : Expressible fun x => x.2.2.2 == p.2.2.2 := .beq ⟨.carry, fun _ => rfl⟩ _
  refine (kind.and (value.and (amount.and carry))).congr fun x => ?_
  rw [Bool.eq_iff_iff]
  simp [Prod.ext_iff]

/-- A predicate that is true at finitely many tuples, and there are only finitely many. -/
theorem expressible_every (g : EdgeArgs → Bool) : Expressible g := by
  classical
  have finite : Finite ShiftKind :=
    Finite.of_injective (fun k : ShiftKind => (decide (k = .lsl), decide (k = .lsr))) (by intro a b; cases a <;> cases b <;> simp)
  have onSet : ∀ points : Set EdgeArgs, points.Finite → Expressible fun x => decide (x ∈ points) := by
    intro points hp
    induction points, hp using Set.Finite.induction_on with
    | empty => simpa using Expressible.const false
    | insert _ _ ih => simpa using (Expressible.point _).or ih
  simpa using onSet {x | g x = true} (Set.toFinite _)

/-- Every total function of kind, v, n and C before is a function that a configuration can supply. -/
theorem edgeFunction_complete (answer : ShiftKind → Word → Word → Bool → Word × Bool) :
    ∃ f : EdgeFunction, ∀ kind v n c, edgeAnswer f kind v n c = answer kind v n c := by
  choose bit hbit using fun i : Fin 16 => expressible_every fun x => (answer x.1 x.2.1 x.2.2.1 x.2.2.2).1.getLsbD i
  obtain ⟨last, hlast⟩ := expressible_every fun x => (answer x.1 x.2.1 x.2.2.1 x.2.2.2).2
  refine ⟨{ result := Vector.ofFn bit, carry := last }, fun kind v n c => Prod.ext ?_ (hlast (kind, v, n, c))⟩
  refine BitVec.eq_of_getLsbD_eq fun i hi => ?_
  simpa [edgeAnswer, edgeAt, hi] using hbit ⟨i, hi⟩ (kind, v, n, c)

end Sys2Proof.Machine
end

