-- ==== Sys2Proof/Laws/Step.lean ====
section
/-! SUPPORT. Everything a step can do when it answers a next state. -/

namespace Sys2Proof.Machine

/-- A step to a next state stays at the end of the run, or runs the decoded instruction. -/
theorem step_next_cases {s t : State} (h : step s = .next t) :
    (isFinal s = true ∧ t = s) ∨
      ∃ w i, fetchWord s = .ok w ∧ decode s.cfg w = .ok i ∧ exec i s = .next t := by
  unfold step at h
  split at h
  · exact absurd h (markedOutcome_not_next _ _)
  · split at h
    · rename_i hf
      cases h
      exact .inl ⟨hf, rfl⟩
    · split at h
      · cases h
      · rename_i w hw
        split at h
        · rename_i i hi
          exact .inr ⟨w, i, hw, hi, h⟩
        · exact absurd h (decodeFailure_not_next _ _ _ _)

/-- What the host stores at pc is what the next step runs. -/
theorem step_withFetchWord {s : State} {w : Nat} {i : Instr} (hm : s.mark = none) (hh : s.cfg.haltAddr ≠ some s.pc)
    (ho : isOdd s.pc = false) (ha : Safety.WordAdmitted s.cfg s.pc .fetch)
    (hd : decode s.cfg (BitVec.ofNat 16 w) = .ok i) :
    step (s.withFetchWord 16 w) = exec i (s.withFetchWord 16 w) := by
  have hw : readWord (s.withFetchWord 16 w) s.pc = BitVec.ofNat 16 w := by
    rw [State.withFetchWord, readWord_writeWord]
    apply BitVec.eq_of_toNat_eq
    simp
  have hf : fetchWord (s.withFetchWord 16 w) = .ok (BitVec.ofNat 16 w) := fetchWord_ok.mpr ⟨ho, ha, hw⟩
  have hn : isFinal (s.withFetchWord 16 w) = false := by simp [isFinal, State.withFetchWord, hh]
  unfold step
  rw [show (s.withFetchWord 16 w).mark = none from hm, hf]
  simp only [hn, show (s.withFetchWord 16 w).cfg = s.cfg from rfl, hd]
  rfl

end Sys2Proof.Machine
end

