-- ==== Sys2Proof/Tests/Slice0.lean ====
section
/-! SUPPORT. Tests of the model against the vectors of 95_test_vectors.md, and for every statement a witness that its hypotheses can be met, clause by clause. -/

namespace Sys2Proof.Tests

open Sys2Proof.Machine Sys2Proof.Safety Sys2Proof.Claims

/-! ## The demonstration configuration and state -/

/-- 0 where any of the 16 bits of the amount is 1. -/
def amountIsZero : EdgeTerm :=
  (List.finRange 16).foldr (fun i rest => .and (.not (.amount i)) rest) (.const true)

/-- The reading of R99 that uses the amount whole, for the result: v at 0, and at 16 or more 0, or copies of v[15] for `asr`.
C is kept. -/
def wholeAmount : EdgeFunction :=
  { result := Vector.ofFn fun i =>
      .not (.and (.not (.and amountIsZero (.value i)))
        (.not (.and (.not amountIsZero) (.and (.kindIs .asr) (.value 15)))))
    carry := .carry }

/-- A configuration with every parameter given a value: PC is 14 and `IN_SUBOP` is 6, as in the vectors. -/
def demoCfg : Config :=
  { pcRegnum := 14
    reservedRegs := []
    admitPcOperands := false
    pcReadBias := 8
    branchBias := 8
    cond := .given [{ cc := 9, c := false, n := false, z := false }]
    endian := .big
    ld8Ext := .zero
    subCarry := .addComplement
    shiftEdge := .supplied wholeAmount
    inSubop := some 6
    inFlags := .unchanged
    memAdmit := [Config.wholeMemory]
    resetPc := 0x0500
    haltAddr := some 0x0800 }

/-- The state after reset at `A = $0500` with three registers given: r1, r2 and r3. -/
def demo (cfg : Config) (r1 r2 r3 : Word) : State :=
  (((State.resetWith cfg).setReg 1 r1).setReg 2 r2).setReg 3 r3

/-- The same with C set. -/
def carrySet (s : State) : State := s.setFlags { c := true, n := false, z := true }

/-- The state of the memory vectors: `mem[$0340] = $AB`, `mem[$0341] = $01`, r1 = `$0340`, r2 = `$ABCD`, r3 = `$0001`. -/
def loaded (cfg : Config) : State := (demo cfg 0x0340 0xABCD 0x0001).setMem [(0x0340, 0xAB), (0x0341, 0x01)]

def nextState : Result → Option State
  | .next t => some t
  | _ => none

/-- One register of the next state. -/
def regOf (r : RegNum) (out : Result) : Option Word := (nextState out).map fun t => t.regs[r]

/-- One register of the next state and its flags. -/
def regFlags (r : RegNum) (out : Result) : Option (Word × Flags) := (nextState out).map fun t => (t.regs[r], t.flags)

def flagsOfNext (out : Result) : Option Flags := (nextState out).map fun t => t.flags

def pcOf (out : Result) : Option Word := (nextState out).map fun t => t.pc

/-- Two bytes of the next state's memory. -/
def bytesOf (a b : Nat) (out : Result) : Option (Byte × Byte) :=
  (nextState out).map fun t => (Memory.read t.mem a, Memory.read t.mem b)

def faultOf : Result → Option Fault
  | .fault f => some f
  | _ => none

def refusalOf : Result → Option Refusal
  | .refused r => some r
  | _ => none

def okOf : Except DecodeError Instr → Option Instr
  | .ok i => some i
  | .error _ => none

def errorOf : Except DecodeError Instr → Option DecodeError
  | .ok _ => none
  | .error e => some e

/-! ## WellFormed: an ill-formed term for each check -/

theorem test_wf_bcc : Instr.wf (.bcc 10 0) = false ∧ Instr.wf (.bcc 9 0) = true := by decide

theorem test_wf_inSubop :
    Config.wf { demoCfg with inSubop := some 5 } = false ∧ Config.wf { demoCfg with inSubop := some 6 } = true := by decide

theorem test_wf_resetPc :
    Config.wf { demoCfg with resetPc := 0x0501 } = false ∧ Config.wf demoCfg = true := by decide

theorem test_wf_memory :
    Memory.wf [(2, 1), (1, 1)] = false ∧ Memory.wf [(1, 0)] = false ∧ Memory.wf [(65536, 1)] = false ∧
      Memory.wf [(1, 1), (1, 1)] = false ∧ Memory.wf [(1, 1), (65535, 1)] = true := by decide

/-! ## Decoding: the words of 95_test_vectors.md section 2, one for every constructor -/

theorem test_decode_immediate :
    okOf (decode demoCfg 0x07F0) = some (.ldim 0x7F 0) ∧ okOf (decode demoCfg 0x3800) = some (.ldim 0x80 3) ∧
      okOf (decode demoCfg 0x0000) = some (.ldim 0 0) ∧ okOf (decode demoCfg 0x4121) = some (.ldimh 0x12 4) := by decide

theorem test_decode_memory :
    okOf (decode demoCfg 0x4102) = some (.ld8 1 0 4) ∧ okOf (decode demoCfg 0x6103) = some (.ld16 1 0 6) ∧
      okOf (decode demoCfg 0x3134) = some (.str8 1 3 3) ∧ okOf (decode demoCfg 0x2105) = some (.str16 1 0 2) := by decide

theorem test_decode_arith :
    okOf (decode demoCfg 0x3126) = some (.add 1 2 3) ∧ okOf (decode demoCfg 0x5447) = some (.adc 4 4 5) ∧
      okOf (decode demoCfg 0x3128) = some (.and 1 2 3) ∧ okOf (decode demoCfg 0x3129) = some (.or 1 2 3) ∧
      okOf (decode demoCfg 0x312A) = some (.xor 1 2 3) := by decide

theorem test_decode_shift :
    okOf (decode demoCfg 0x312B) = some (.lsl 1 2 3) ∧ okOf (decode demoCfg 0x312C) = some (.lsr 1 2 3) ∧
      okOf (decode demoCfg 0x312D) = some (.asr 1 2 3) := by decide

theorem test_decode_branch :
    okOf (decode demoCfg 0x97FE) = some (.bcc 9 0x7F) ∧ okOf (decode demoCfg 0x080E) = some (.bcc 0 0x80) ∧
      errorOf (decode demoCfg 0xA00E) = some (.invalidInstruction 0xA00E) ∧
      errorOf (decode demoCfg 0xF7FE) = some (.invalidInstruction 0xF7FE) := by decide

theorem test_decode_twoOperand :
    okOf (decode demoCfg 0x210F) = some (.mov 1 2) ∧ okOf (decode demoCfg 0x301F) = some (.neg 0 3) ∧
      okOf (decode demoCfg 0x652F) = some (.not 5 6) ∧ okOf (decode demoCfg 0x213F) = some (.cmp 1 2) ∧
      okOf (decode demoCfg 0x704F) = some (.call 0 7) ∧ okOf (decode demoCfg 0x215F) = some (.swap 1 2) ∧
      okOf (decode demoCfg 0xFF5F) = some (.swap 15 15) := by decide

theorem test_decode_in :
    okOf (decode demoCfg 0x216F) = some (.inPort 1 2) ∧ errorOf (decode demoCfg 0x00FF) = some (.notShown 0x00FF) ∧
      errorOf (decode Config.launch 0x216F) = some (.notShown 0x216F) := by decide

/-- Bytes are read in the order of `ENDIAN`, and what follows the word is left (R34, R50). -/
theorem test_decodeBytes :
    (decodeBytes demoCfg [0x31, 0x26, 0x77]).toOption = some (.add 1 2 3, [0x77]) ∧
      (decodeBytes { demoCfg with endian := .little } [0x26, 0x31]).toOption = some (.add 1 2 3, []) ∧
      (decodeBytes demoCfg [0x31]).toOption = none := by decide

theorem test_decodeTableWord :
    decodeTableWord 16 0x3126 = some (.add 1 2 3) ∧ decodeTableWord 16 0xFF5F = some (.swap 15 15) ∧
      decodeTableWord 16 0xA00E = none := by decide

/-! ## Steps: vectors of 95_test_vectors.md section 3 -/

theorem test_ldim : regFlags 3 (exec (.ldim 0x80 3) (demo demoCfg 0 0 5)) = some (0xFF80, ⟨false, false, false⟩) := by decide
theorem test_ldim_zero : regFlags 1 (exec (.ldim 0 1) (demo demoCfg 7 0 0)) = some (0, ⟨false, false, false⟩) := by decide
theorem test_ldimh : regOf 3 (exec (.ldimh 0x12 3) (demo demoCfg 0 0 0xFF34)) = some 0x1234 := by decide
theorem test_ldimh_ff : regOf 3 (exec (.ldimh 0xFF 3) (demo demoCfg 0 0 0)) = some 0xFF00 := by decide

theorem test_ld8 : regOf 4 (exec (.ld8 1 0 4) (loaded demoCfg)) = some 0x00AB := by decide
theorem test_ld8_sign : regOf 4 (exec (.ld8 1 0 4) (loaded { demoCfg with ld8Ext := .sign })) = some 0xFFAB := by decide
theorem test_ld16 :
    regOf 6 (exec (.ld16 1 0 6) (loaded demoCfg)) = some 0xAB01 ∧
      regOf 6 (exec (.ld16 1 0 6) (loaded { demoCfg with endian := .little })) = some 0x01AB := by decide
theorem test_ld16_odd : faultOf (exec (.ld16 1 3 6) (loaded demoCfg)) = some (.misalignedData 0x0341) := by decide
theorem test_str8 : bytesOf 0x0340 0x0341 (exec (.str8 1 0 2) (loaded demoCfg)) = some (0xCD, 0x01) := by decide
theorem test_str8_window :
    faultOf (exec (.str8 1 0 2) (demo demoCfg 0x0502 0 0)) = some (.prefetchWindowStore 0x0502) ∧
      faultOf (exec (.str8 1 0 2) (demo demoCfg 0x0509 0 0)) = some (.prefetchWindowStore 0x0509) ∧
      faultOf (exec (.str8 1 0 2) (demo demoCfg 0x0501 0 0)) = none ∧
      faultOf (exec (.str8 1 0 2) (demo demoCfg 0x050A 0 0)) = none := by decide
theorem test_str16 :
    bytesOf 0x0340 0x0341 (exec (.str16 1 0 2) (loaded demoCfg)) = some (0xAB, 0xCD) ∧
      bytesOf 0x0340 0x0341 (exec (.str16 1 0 2) (loaded { demoCfg with endian := .little })) = some (0xCD, 0xAB) := by
  decide
/-- Alignment before the window, the window before admission (section 5). -/
theorem test_str16_order :
    faultOf (exec (.str16 1 0 2) (demo demoCfg 0x0503 0 0)) = some (.misalignedData 0x0503) ∧
      faultOf (exec (.str16 1 0 2) (demo { demoCfg with memAdmit := [] } 0x0504 0 0)) =
        some (.prefetchWindowStore 0x0504) := by decide

theorem test_add : regFlags 3 (exec (.add 1 2 3) (demo demoCfg 0xFFFF 1 9)) = some (0, ⟨true, false, true⟩) := by decide
theorem test_add_self : regFlags 1 (exec (.add 1 1 1) (demo demoCfg 5 0 0)) = some (0x000A, ⟨false, false, false⟩) := by decide
theorem test_adc :
    regFlags 3 (exec (.adc 1 2 3) (carrySet (demo demoCfg 0xFFFF 0xFFFF 0))) = some (0xFFFF, ⟨true, true, false⟩) := by decide
theorem test_adc_sign :
    regFlags 3 (exec (.adc 1 2 3) (carrySet (demo demoCfg 0x7FFF 0 0))) = some (0x8000, ⟨false, true, false⟩) := by decide
theorem test_and :
    regFlags 3 (exec (.and 1 2 3) (carrySet (demo demoCfg 0xFFFF 0x8000 0))) = some (0x8000, ⟨true, true, false⟩) := by decide
theorem test_or :
    regFlags 3 (exec (.or 1 2 3) (carrySet (demo demoCfg 0xF0F0 0x0FF0 0))) = some (0xFFF0, ⟨true, true, false⟩) := by decide
theorem test_xor :
    regFlags 3 (exec (.xor 1 2 3) (carrySet (demo demoCfg 0x1234 0x1234 9))) = some (0, ⟨true, false, true⟩) := by decide

theorem test_lsl : regFlags 3 (exec (.lsl 1 2 3) (demo demoCfg 0x4000 2 9)) = some (0, ⟨true, false, true⟩) := by decide
theorem test_lsl_15 : regFlags 3 (exec (.lsl 1 2 3) (demo demoCfg 0xFFFF 15 0)) = some (0x8000, ⟨true, true, false⟩) := by decide
theorem test_lsr : regFlags 3 (exec (.lsr 1 2 3) (demo demoCfg 0x8001 1 0)) = some (0x4000, ⟨true, false, false⟩) := by decide
theorem test_lsr_15 : regFlags 3 (exec (.lsr 1 2 3) (demo demoCfg 0x8000 15 0)) = some (1, ⟨false, false, false⟩) := by decide
theorem test_asr : regFlags 3 (exec (.asr 1 2 3) (demo demoCfg 0xFFF9 1 0)) = some (0xFFFC, ⟨true, true, false⟩) := by decide
theorem test_asr_15 : regFlags 3 (exec (.asr 1 2 3) (demo demoCfg 0x8000 15 0)) = some (0xFFFF, ⟨false, true, false⟩) := by decide

/-- A supplied `SHIFT_EDGE`: the amounts 0 and 16 (R99, the amount used whole). -/
theorem test_shift_supplied :
    regFlags 3 (exec (.lsl 1 2 3) (carrySet (demo demoCfg 0x8001 0 0))) = some (0x8001, ⟨true, true, false⟩) ∧
      regFlags 3 (exec (.lsr 1 2 3) (demo demoCfg 0x8001 16 9)) = some (0, ⟨false, false, true⟩) ∧
      regFlags 3 (exec (.asr 1 2 3) (demo demoCfg 0x8001 16 0)) = some (0xFFFF, ⟨false, true, false⟩) := by
  and_intros <;> decide

theorem test_bcc :
    pcOf (exec (.bcc 9 0x7F) ((demo demoCfg 0 0 0).setPc 0x1000)) = some 0x1106 ∧
      pcOf (exec (.bcc 9 0x80) ((demo demoCfg 0 0 0).setPc 0)) = some 0xFF08 := by decide
theorem test_bcc_not_taken :
    pcOf (exec (.bcc 8 0x7F) ((demo demoCfg 0 0 0).setPc 0xFFFE)) = some 0 ∧
      faultOf (exec (.bcc 10 0x7F) (demo demoCfg 0 0 0)) = some (.invalidInstruction 0xA7FE 0x0500) := by decide

theorem test_mov : regFlags 2 (exec (.mov 1 2) (carrySet (demo demoCfg 0xBEEF 0 0))) = some (0xBEEF, ⟨true, false, true⟩) := by
  decide
theorem test_mov_pc : pcOf (exec (.mov 1 14) (demo demoCfg 0x0308 0 0)) = some 0x0308 := by decide
theorem test_neg : regFlags 2 (exec (.neg 1 2) (demo demoCfg 0x8000 0 0)) = some (0x8000, ⟨false, true, false⟩) := by decide
theorem test_neg_borrow :
    regFlags 2 (exec (.neg 1 2) (demo { demoCfg with subCarry := .borrow } 0x1234 0 0)) =
      some (0xEDCC, ⟨true, true, false⟩) := by decide
theorem test_not : regFlags 2 (exec (.not 1 2) (carrySet (demo demoCfg 0xFFFF 0 0))) = some (0, ⟨true, false, true⟩) := by decide
theorem test_cmp : regFlags 2 (exec (.cmp 1 2) (demo demoCfg 0xFFFF 0x7FFF 0)) = some (0x7FFF, ⟨false, true, false⟩) := by decide
theorem test_cmp_borrow :
    flagsOfNext (exec (.cmp 1 2) (demo { demoCfg with subCarry := .borrow } 5 3 0)) = some ⟨true, true, false⟩ := by decide
theorem test_call : pcOf (exec (.call 1 2) (demo demoCfg 0x0310 0 0)) = some 0x0310 ∧
    regOf 2 (exec (.call 1 2) (demo demoCfg 0x0310 0 0)) = some 0x0502 := by decide
theorem test_call_same : pcOf (exec (.call 3 3) (demo demoCfg 0 0 0x0700)) = some 0x0700 ∧
    regOf 3 (exec (.call 3 3) (demo demoCfg 0 0 0x0700)) = some 0x0502 := by decide
theorem test_swap :
    regOf 1 (exec (.swap 1 2) (demo demoCfg 0x1111 0x2222 0)) = some 0x2222 ∧
      regOf 2 (exec (.swap 1 2) (demo demoCfg 0x1111 0x2222 0)) = some 0x1111 := by decide

/-- The value is the oracle's, and the history grows by the one read. -/
theorem test_in :
    regOf 2 (exec (.inPort 1 2) (demo demoCfg 0x0010 0 0)) = some (Config.portRead [] 0x0010 0) ∧
      (nextState (exec (.inPort 1 2) (demo demoCfg 0x0010 0 0))).map (fun t => t.portHistory) = some [.read 0x0010] :=
  ⟨rfl, rfl⟩

/-- PC as an operand: section 3.9, at A = `$0500` with `PC_READ_BIAS = 8`. -/
theorem test_pc_operands :
    refusalOf (exec (.mov 14 1) (demo demoCfg 0 0 0)) = some (.pcOperand (some 0x1E0F)) ∧
      regOf 1 (exec (.mov 14 1) (demo { demoCfg with admitPcOperands := true } 0 0 0)) = some 0x0508 ∧
      pcOf (exec (.ldim 0x10 14) (demo { demoCfg with admitPcOperands := true } 0 0 0)) = some 0x0010 ∧
      refusalOf (exec (.call 0 14) (demo { demoCfg with admitPcOperands := true } 0 0 0)) =
        some (.pcOperand (some 0xE04F)) ∧
      refusalOf (exec (.add 1 14 15) (demo { demoCfg with reservedRegs := [15] } 0 0 0)) =
        some (.reservedReg (some 0xF1E6)) := by decide

/-- A step fetches, decodes and executes; the first instruction after reset is the one placed (`mov r1, r2`). -/
theorem test_step : (nextState (step (State.reset.withFetchWord 16 0x210F))).map (fun t => t.pc) = some 2 := by decide

/-- `$E6FF` decodes to nothing before its registers are looked at; an odd pc is reported before anything (section 5). -/
theorem test_step_order :
    refusalOf (step ((demo demoCfg 0 0 0).withFetchWord 16 0xE6FF)) = some (.notShown 0xE6FF) ∧
      faultOf (step ((demo demoCfg 0 0 0).setPc 0x0301)) = some (.misalignedFetch 0x0301) := by decide

/-! ## Witnesses: the hypotheses of each statement met, each clause at a boundary value -/

/-- A configuration that draws everything. -/
def drawCfg : Config :=
  { demoCfg with ld8Ext := .draw, subCarry := .draw, shiftEdge := .draw, inFlags := .draw, inSubop := none }

def littleCfg : Config := { demoCfg with endian := .little }

def signCfg : Config := { demoCfg with ld8Ext := .sign }

def borrowCfg : Config := { demoCfg with subCarry := .borrow }

/-- PC admitted as an operand, and `ld8` keeping the high byte. -/
def pcCfg : Config := { demoCfg with admitPcOperands := true, ld8Ext := .keep }

/-- Only the bytes `$0500` and `$0340` are admitted: the first byte of the instruction word, the first byte of the data. -/
def narrowCfg : Config :=
  { demoCfg with memAdmit := [{ base := 0x0500, size := 1, read := true, write := true, fetch := true },
      { base := 0x0340, size := 1, read := true, write := true, fetch := true }] }

/-- The instruction word `w` at `$0500`. -/
def atPc (cfg : Config) (w : Nat) : State := (demo cfg 0x0340 0xABCD 0x0001).withFetchWord 16 w

theorem witness_DecodeOfEncode :
    demoCfg.inSubopOk = true ∧ Instr.wf (.bcc 9 0xFF) = true ∧ encode demoCfg (.bcc 9 0xFF) = some 0x9FFE ∧
      encode demoCfg (.inPort 15 15) = some 0xFF6F := by decide

theorem witness_EncodeOfDecode :
    okOf (decode demoCfg 0x9FFE) = some (.bcc 9 0xFF) ∧ okOf (decode demoCfg 0xFF6F) = some (.inPort 15 15) := by decide

/-- One word for each clause, in order, with the fields of all of them. -/
def mapWords : List Word :=
  [0xFFF0, 0xFFF1, 0xFFF2, 0xFFF3, 0xFFF4, 0xFFF5, 0xFFF6, 0xFFF7, 0xFFF8, 0xFFF9, 0xFFFA, 0xFFFB, 0xFFFC, 0xFFFD,
    0x9FFE, 0xFF0F, 0xFF1F, 0xFF2F, 0xFF3F, 0xFF4F, 0xFF5F]

theorem witness_OpcodeMaps :
    mapWords.all (fun w => decide ((dField w).val = w.toNat / 4096 ∧ (aField w).val = w.toNat / 256 % 16 ∧
      (bField w).val = w.toNat / 16 % 16 ∧ (ccField w).toNat = w.toNat / 4096 ∧
      (immField w).toNat = w.toNat / 16 % 256)) = true ∧
    mapWords.map (fun w => w.toNat % 16) = [0, 1, 2, 3, 4, 5, 6, 7, 8, 9, 10, 11, 12, 13, 14, 15, 15, 15, 15, 15, 15] ∧
    (mapWords.drop 15).map (fun w => w.toNat % 256) = [0x0F, 0x1F, 0x2F, 0x3F, 0x4F, 0x5F] ∧
    (ccField 0x9FFE).toNat ≤ 9 := by and_intros <;> decide

theorem witness_WordsOutsideTheMaps :
    ((opField 0xA00E).toNat = 0xE ∧ 10 ≤ (ccField 0xA00E).toNat) ∧
    ((opField 0x006F).toNat = 0xF ∧ 6 ≤ (subField 0x006F).toNat ∧ demoCfg.inSubop = some (subField 0x006F)) ∧
    ((opField 0x006F).toNat = 0xF ∧ 6 ≤ (subField 0x006F).toNat ∧ drawCfg.inSubop ≠ some (subField 0x006F)) := by decide

theorem witness_SampleWordsDecode : demoCfg.inSubop = some 6 ∧ drawCfg.inSubop = none := by decide

theorem witness_InDecodesOnlyBySubop : demoCfg.inSubopOk = true ∧ drawCfg.inSubopOk = true := by decide

theorem witness_StepRunsDecoded :
    Running (atPc demoCfg 0x3126) ∧ Fetchable (atPc demoCfg 0x3126) ∧
      decodeBytes demoCfg [readByte (atPc demoCfg 0x3126) 0x0500, readByte (atPc demoCfg 0x3126) 0x0501] =
        .ok (.add 1 2 3, []) := ⟨⟨by decide, by decide⟩, ⟨by decide, by decide⟩, rfl⟩

theorem witness_FetchFaults :
    (Running ((demo demoCfg 0 0 0).setPc 1) ∧ ((demo demoCfg 0 0 0).setPc 1).pc.toNat % 2 = 1) ∧
    (Running ((demo narrowCfg 0 0 0).setPc 0xFFFE) ∧ ((demo narrowCfg 0 0 0).setPc 0xFFFE).pc.toNat % 2 = 0 ∧
      admitted narrowCfg 0xFFFE .fetch = false) ∧
    (Running (demo narrowCfg 0 0 0) ∧ (demo narrowCfg 0 0 0).pc.toNat % 2 = 0 ∧ admitted narrowCfg 0x0500 .fetch = true ∧
      admitted narrowCfg 0x0501 .fetch = false) :=
  ⟨⟨⟨by decide, by decide⟩, by decide⟩, ⟨⟨by decide, by decide⟩, by decide, by decide⟩, ⟨by decide, by decide⟩,
    by decide, by decide, by decide⟩

theorem witness_InvalidBranchRaises :
    Running (atPc demoCfg 0xA00E) ∧ Fetchable (atPc demoCfg 0xA00E) ∧ readWord (atPc demoCfg 0xA00E) 0x0500 = 0xA00E ∧
      opField 0xA00E = 0xE ∧ 10 ≤ (ccField 0xA00E).toNat :=
  ⟨⟨by decide, by decide⟩, ⟨by decide, by decide⟩, by decide, by decide, by decide⟩

theorem witness_NotShownRefused :
    (Running (atPc drawCfg 0x006F) ∧ Fetchable (atPc drawCfg 0x006F) ∧ readWord (atPc drawCfg 0x006F) 0x0500 = 0x006F ∧
      opField 0x006F = 0xF ∧ 6 ≤ (subField 0x006F).toNat ∧ drawCfg.inSubop ≠ some (subField 0x006F)) ∧
    (Running (atPc demoCfg 0x006F) ∧ Fetchable (atPc demoCfg 0x006F) ∧ readWord (atPc demoCfg 0x006F) 0x0500 = 0x006F ∧
      demoCfg.inSubop = some (subField 0x006F)) :=
  ⟨⟨⟨by decide, by decide⟩, ⟨by decide, by decide⟩, by decide, by decide, by decide, by decide⟩,
    ⟨by decide, by decide⟩, ⟨by decide, by decide⟩, by decide, by decide⟩

theorem witness_RegisterRead : (15 : RegNum) ≠ demoCfg.pcRegnum ∧ (14 : RegNum) = demoCfg.pcRegnum := by decide

theorem witness_OperandRefusals :
    (∃ r ∈ fieldsOf (.add 1 2 15), r ∈ ({ demoCfg with reservedRegs := [15] } : Config).reservedRegs) ∧
    ((∀ r ∈ fieldsOf (.mov 14 1), r ∉ demoCfg.reservedRegs) ∧ demoCfg.admitPcOperands = false ∧
      demoCfg.pcRegnum ∈ guardedOf (.mov 14 1)) ∧
    ((1 : RegNum) ∉ pcCfg.reservedRegs ∧ (14 : RegNum) ∉ pcCfg.reservedRegs ∧ (14 : RegNum) = pcCfg.pcRegnum) := by
  decide

theorem witness_PcDestinationAdmitted :
    pcCfg.admitPcOperands = true ∧ (∀ r ∈ fieldsOf (.add 1 2 14), r ∉ pcCfg.reservedRegs) ∧
      destsOf (.add 1 2 14) = [pcCfg.pcRegnum] ∧ readsDest pcCfg (.add 1 2 14) = false ∧
      (∀ a d, Instr.add 1 2 14 ≠ .call a d) ∧ (3 : RegNum) ≠ pcCfg.pcRegnum ∧
      ∃ t, exec (retarget (.add 1 2 14) 3) (demo pcCfg 0xFFFF 1 0) = .next t :=
  ⟨by decide, by decide, by decide, by decide, (by simp), by decide, _, rfl⟩

theorem witness_PcReadAndWritten :
    pcCfg.admitPcOperands = true ∧ pcCfg.pcRegnum ∉ pcCfg.reservedRegs ∧ pcCfg.ld8Ext = .keep ∧
      (14 : RegNum) ∉ pcCfg.reservedRegs ∧
      admitted pcCfg (effectiveAddress (demo pcCfg 0xFFFF 0 0) 1 14) .read = true ∧ (15 : RegNum) ∉ pcCfg.reservedRegs ∧
      (15 : RegNum) ≠ pcCfg.pcRegnum := by decide

/-- The destination one of the sources, and another destination that is none. -/
theorem witness_OperandsReadFirst :
    (destsOf (.add 1 2 1) = [1] ∧ readsDest demoCfg (.add 1 2 1) = false ∧ (∀ a r, Instr.add 1 2 1 ≠ .call a r) ∧
      (1 : RegNum) ∉ demoCfg.reservedRegs ∧ (1 : RegNum) ≠ demoCfg.pcRegnum ∧ (15 : RegNum) ≠ demoCfg.pcRegnum ∧
      ∃ t, exec (retarget (.add 1 2 1) 15) (demo demoCfg 0xFFFF 1 0) = .next t) ∧
    ((15 : RegNum) ∉ demoCfg.reservedRegs ∧ (15 : RegNum) ≠ demoCfg.pcRegnum) :=
  ⟨⟨by decide, by decide, by simp, by decide, by decide, by decide, _, rfl⟩, by decide, by decide⟩

/-- `LdimResult`, `LdimhResult`: the destination at the highest number that is not PC. -/
theorem witness_immediateResults :
    (OperandsOk demoCfg [15] ∧ (15 : RegNum) ≠ demoCfg.pcRegnum) ∧
      (OperandsOk pcCfg [0] ∧ (0 : RegNum) ≠ pcCfg.pcRegnum) := by decide

theorem witness_ConstantInTwoInstructions :
    (15 : RegNum) ∉ demoCfg.reservedRegs ∧ (15 : RegNum) ≠ demoCfg.pcRegnum ∧
      (0x7F#16).toNat ≤ 0x7F ∧ 0xFF80 ≤ (0xFF80#16).toNat := by decide

theorem witness_ByteOrder :
    (demo demoCfg 0 0 0).cfg.endian = .big ∧ (demo littleCfg 0 0 0).cfg.endian = .little := by
  decide

theorem witness_Ld8Result :
    (OperandsOk narrowCfg [1, 0, 4] ∧ admitted narrowCfg (effectiveAddress (demo narrowCfg 0x0341 0 0) 1 0) .read = false) ∧
    (OperandsOk demoCfg [1, 0, 4] ∧ admitted demoCfg (effectiveAddress (demo demoCfg 0xFFFF 0 0) 1 0) .read = true ∧
      (4 : RegNum) ≠ demoCfg.pcRegnum ∧ demoCfg.ld8Ext = .zero) ∧
    (OperandsOk pcCfg [1, 0, 4] ∧ admitted pcCfg (effectiveAddress (demo pcCfg 0 0 0) 1 0) .read = true ∧
      (4 : RegNum) ≠ pcCfg.pcRegnum ∧ pcCfg.ld8Ext = .keep) ∧
    (OperandsOk drawCfg [1, 0, 4] ∧ admitted drawCfg (effectiveAddress (demo drawCfg 0 0 0) 1 0) .read = true ∧
      (4 : RegNum) ≠ drawCfg.pcRegnum ∧ drawCfg.ld8Ext = .draw) ∧
    (OperandsOk signCfg [1, 0, 4] ∧ admitted signCfg (effectiveAddress (demo signCfg 0 0 0) 1 0) .read = true ∧
      (4 : RegNum) ≠ signCfg.pcRegnum ∧ signCfg.ld8Ext = .sign) := by and_intros <;> decide

theorem witness_Ld16Result :
    (OperandsOk demoCfg [1, 0, 4] ∧ (effectiveAddress (demo demoCfg 0xFFFF 0 0) 1 0).toNat % 2 = 1) ∧
    (OperandsOk narrowCfg [1, 0, 4] ∧ (effectiveAddress (demo narrowCfg 0x0340 0 0) 1 0).toNat % 2 = 0 ∧
      ¬ WordAdmitted narrowCfg (effectiveAddress (demo narrowCfg 0x0340 0 0) 1 0) .read) ∧
    ((effectiveAddress (demo demoCfg 0xFFFE 0 0) 1 0).toNat % 2 = 0 ∧
      WordAdmitted demoCfg (effectiveAddress (demo demoCfg 0xFFFE 0 0) 1 0) .read ∧ (4 : RegNum) ≠ demoCfg.pcRegnum ∧
      demoCfg.endian = .big) ∧
    (OperandsOk littleCfg [1, 0, 4] ∧ (effectiveAddress (demo littleCfg 0xFFFE 0 0) 1 0).toNat % 2 = 0 ∧
      WordAdmitted littleCfg (effectiveAddress (demo littleCfg 0xFFFE 0 0) 1 0) .read ∧
      (4 : RegNum) ≠ littleCfg.pcRegnum ∧ littleCfg.endian = .little) := by and_intros <;> decide

/-- The two ends of the window of the instruction at `$0500`. -/
theorem window_ends : InWindow demoCfg 0x0500 0x0502 ∧ InWindow demoCfg 0x0500 0x0509 :=
  ⟨⟨2, by decide, by decide, by decide⟩, ⟨9, by decide, by decide, by decide⟩⟩

/-- What lies just outside: the second byte of the instruction itself, and the byte after the window. -/
theorem window_outside (cfg : Config) (h : cfg.branchBias = 8) :
    ¬ InWindow cfg 0x0500 0x0500 ∧ ¬ InWindow cfg 0x0500 0x0501 ∧ ¬ InWindow cfg 0x0500 0x050A ∧
      ¬ InWindow cfg 0x0500 0x050B := by
  refine ⟨?_, ?_, ?_, ?_⟩ <;>
  · rintro ⟨k, h1, h2, h3⟩
    simp only [h, BitVec.ofNat_eq_ofNat, BitVec.toNat_ofNat, Nat.reducePow, Nat.reduceMod, Nat.reduceAdd] at h2
    interval_cases k <;> simp at h3

theorem witness_WindowIsTheRange : InWindow demoCfg 0xFFFA 0x0003 := ⟨9, by decide, by decide, by decide⟩

/-- Inside at both ends, outside and not admitted, outside and admitted. -/
theorem witness_Str8Result :
    (OperandsOk demoCfg [1, 0, 2] ∧ InWindow demoCfg 0x0500 (effectiveAddress (demo demoCfg 0x0502 0 0) 1 0) ∧
      InWindow demoCfg 0x0500 (effectiveAddress (demo demoCfg 0x0509 0 0) 1 0)) ∧
    (OperandsOk narrowCfg [1, 0, 2] ∧ ¬ InWindow narrowCfg 0x0500 (effectiveAddress (demo narrowCfg 0x050A 0 0) 1 0) ∧
      admitted narrowCfg (effectiveAddress (demo narrowCfg 0x050A 0 0) 1 0) .write = false) ∧
    (¬ InWindow demoCfg 0x0500 (effectiveAddress (demo demoCfg 0x0501 0 0) 1 0) ∧
      admitted demoCfg (effectiveAddress (demo demoCfg 0x0501 0 0) 1 0) .write = true) :=
  ⟨⟨by decide, window_ends.1, window_ends.2⟩, ⟨by decide, (window_outside narrowCfg rfl).2.2.1, by decide⟩,
    (window_outside demoCfg rfl).2.1, by decide⟩

/-- Odd; in the window; outside and half admitted; outside and admitted, under both byte orders. -/
theorem witness_Str16Result :
    (OperandsOk demoCfg [1, 0, 2] ∧ (effectiveAddress (demo demoCfg 0x0503 0 0) 1 0).toNat % 2 = 1) ∧
    ((effectiveAddress (demo demoCfg 0x0502 0 0) 1 0).toNat % 2 = 0 ∧
      InWindow demoCfg 0x0500 (effectiveAddress (demo demoCfg 0x0502 0 0) 1 0)) ∧
    (OperandsOk narrowCfg [1, 0, 2] ∧ (effectiveAddress (demo narrowCfg 0x0500 0 0) 1 0).toNat % 2 = 0 ∧
      ¬ (InWindow narrowCfg 0x0500 (effectiveAddress (demo narrowCfg 0x0500 0 0) 1 0) ∨
        InWindow narrowCfg 0x0500 (effectiveAddress (demo narrowCfg 0x0500 0 0) 1 0 + 1)) ∧
      ¬ WordAdmitted narrowCfg (effectiveAddress (demo narrowCfg 0x0500 0 0) 1 0) .write) ∧
    ((effectiveAddress (demo demoCfg 0x050A 0 0) 1 0).toNat % 2 = 0 ∧
      ¬ (InWindow demoCfg 0x0500 (effectiveAddress (demo demoCfg 0x050A 0 0) 1 0) ∨
        InWindow demoCfg 0x0500 (effectiveAddress (demo demoCfg 0x050A 0 0) 1 0 + 1)) ∧
      WordAdmitted demoCfg (effectiveAddress (demo demoCfg 0x050A 0 0) 1 0) .write) :=
  ⟨by decide, ⟨by decide, window_ends.1⟩,
    ⟨by decide, by decide, not_or.mpr ⟨(window_outside narrowCfg rfl).1, (window_outside narrowCfg rfl).2.1⟩, by decide⟩,
    by decide, not_or.mpr ⟨(window_outside demoCfg rfl).2.2.1, (window_outside demoCfg rfl).2.2.2⟩, by decide⟩

theorem witness_StoreThenLoadWord :
    (1 : RegNum) ≠ demoCfg.pcRegnum ∧ (0 : RegNum) ≠ demoCfg.pcRegnum ∧ (1 : RegNum) ≠ demoCfg.pcRegnum ∧
      ∃ t u, exec (.str16 1 0 2) (loaded demoCfg) = .next t ∧ exec (.ld16 1 0 1) t = .next u :=
  ⟨by decide, by decide, by decide, _, _, rfl, rfl⟩

/-- `AddResult`, `AdcResult`, `AndResult`, `OrResult`, `XorResult`: all fields the highest register; a source that is PC. -/
theorem witness_threeRegisterResults :
    (OperandsOk demoCfg [15, 15, 15] ∧ (15 : RegNum) ≠ demoCfg.pcRegnum) ∧
      (OperandsOk pcCfg [14, 0, 0] ∧ (0 : RegNum) ≠ pcCfg.pcRegnum) := by decide

theorem witness_SubtractByNegAdd :
    (∀ r ∈ ([1, 2, 3, 1] : List RegNum), r ∉ demoCfg.reservedRegs ∧ r ≠ demoCfg.pcRegnum) ∧ (3 : RegNum) ≠ 1 := by decide

/-- `LslResult`, `LsrResult`, `AsrResult`: amounts 1 and 15. -/
theorem witness_shiftResults :
    OperandsOk demoCfg [1, 2, 3] ∧ (3 : RegNum) ≠ demoCfg.pcRegnum ∧
      (1 ≤ (readReg (demo demoCfg 0 1 0) 2).toNat ∧ (readReg (demo demoCfg 0 1 0) 2).toNat ≤ 15) ∧
      (1 ≤ (readReg (demo demoCfg 0 15 0) 2).toNat ∧ (readReg (demo demoCfg 0 15 0) 2).toNat ≤ 15) := by decide

/-- Amounts 0 and 16, drawn and supplied. -/
theorem witness_ShiftEdgeAmounts :
    (OperandsOk drawCfg [1, 2, 3] ∧ (3 : RegNum) ≠ drawCfg.pcRegnum ∧ readReg (demo drawCfg 0 0 0) 2 = 0 ∧
      16 ≤ (readReg (demo drawCfg 0 16 0) 2).toNat ∧ drawCfg.shiftEdge = .draw) ∧
    (OperandsOk demoCfg [1, 2, 3] ∧ (3 : RegNum) ≠ demoCfg.pcRegnum ∧ readReg (demo demoCfg 0 0 0) 2 = 0 ∧
      16 ≤ (readReg (demo demoCfg 0 16 0) 2).toNat ∧ 16 ≤ (readReg (demo demoCfg 0 0xFFFF 0) 2).toNat ∧
      demoCfg.shiftEdge = .supplied wholeAmount) := by and_intros <;> decide

/-- Condition numbers 10 and 9, the condition true and false. -/
theorem witness_BccResult :
    10 ≤ (10#4).toNat ∧ (9#4).toNat ≤ 9 ∧ condHolds demoCfg 9 ⟨false, false, false⟩ = true ∧
      condHolds demoCfg 9 ⟨false, false, true⟩ = false := by decide

theorem witness_BranchRange :
    (demo demoCfg 0 0 0).cfg.branchBias = 8 ∧ (9#4).toNat ≤ 9 ∧
      condHolds demoCfg 9 (demo demoCfg 0 0 0).flags = true := by decide

theorem witness_AssembledBranchReachesLabel :
    (0x040A#16).toNat % 2 = 0 ∧ demoCfg.branchBias.toNat % 2 = 0 ∧ branchImm8 demoCfg 0x040A 0x0406 = some 0xFA := by decide

theorem witness_MovResult : MovOperandsOk demoCfg 1 14 ∧ MovOperandsOk demoCfg 15 15 ∧ MovOperandsOk pcCfg 14 1 := by decide

/-- `NegResult`, `NotResult`, under each setting of `SUB_CARRY`. -/
theorem witness_negNotResults :
    (OperandsOk demoCfg [15, 15] ∧ (15 : RegNum) ≠ demoCfg.pcRegnum ∧ demoCfg.subCarry = .addComplement) ∧
    (OperandsOk drawCfg [15, 15] ∧ (15 : RegNum) ≠ drawCfg.pcRegnum ∧ drawCfg.subCarry = .draw) ∧
    (OperandsOk borrowCfg [15, 15] ∧ (15 : RegNum) ≠ borrowCfg.pcRegnum ∧ borrowCfg.subCarry = .borrow) := by
  and_intros <;> decide

theorem witness_CmpResult :
    (OperandsOk demoCfg [15, 15] ∧ demoCfg.subCarry = .addComplement) ∧
    (OperandsOk drawCfg [15, 15] ∧ drawCfg.subCarry = .draw) ∧
    (OperandsOk pcCfg [1, 14]) ∧
    (OperandsOk borrowCfg [15, 15] ∧ (15 : RegNum) ≠ borrowCfg.pcRegnum ∧ borrowCfg.subCarry = .borrow) := by
  and_intros <;> decide

theorem witness_CallResult : CallOperandsOk demoCfg 15 15 ∧ CallOperandsOk pcCfg 14 1 := by decide

theorem witness_SwapResult :
    OperandsOk demoCfg [15, 0] ∧ OperandsOk demoCfg [15, 15] ∧ (15 : RegNum) ≠ demoCfg.pcRegnum ∧
      (0 : RegNum) ≠ demoCfg.pcRegnum := by decide

theorem witness_CallThenMovReturns :
    (∃ t, exec (.call 1 1) (demo demoCfg 0x0310 0 0) = .next t) ∧ demoCfg.pcRegnum ∉ demoCfg.reservedRegs :=
  ⟨⟨_, rfl⟩, by decide⟩

theorem witness_InResult :
    (OperandsOk demoCfg [15, 15] ∧ (15 : RegNum) ≠ demoCfg.pcRegnum ∧ demoCfg.inFlags = .unchanged) ∧
      (OperandsOk drawCfg [15, 15] ∧ (15 : RegNum) ≠ drawCfg.pcRegnum ∧ drawCfg.inFlags = .draw) := by
  and_intros <;> decide

theorem witness_RegisterFrame :
    (∃ t, exec (.swap 1 2) (demo demoCfg 1 2 3) = .next t) ∧ (3 : RegNum) ∉ destsOf (.swap 1 2) := ⟨⟨_, rfl⟩, by decide⟩

theorem witness_FlagFrame :
    (∃ t, exec (.swap 1 2) (demo demoCfg 1 2 3) = .next t) ∧ keepsFlags (.swap 1 2) = true ∧
      (∃ t, exec (.not 1 2) (demo demoCfg 1 2 3) = .next t) ∧ keepsCarry (.not 1 2) = true :=
  ⟨⟨_, rfl⟩, by decide, ⟨_, rfl⟩, by decide⟩

/-- A byte store and the byte beside it; a word store and the byte after it; a form that stores nothing. -/
theorem witness_MemoryFrame :
    ((∃ t, exec (.str8 1 0 2) (loaded demoCfg) = .next t) ∧ 0x0341 ≠ (effectiveAddress (loaded demoCfg) 1 0).toNat) ∧
    ((∃ t, exec (.str16 1 0 2) (loaded demoCfg) = .next t) ∧ 0x0342 ≠ (effectiveAddress (loaded demoCfg) 1 0).toNat ∧
      0x0342 ≠ (effectiveAddress (loaded demoCfg) 1 0 + 1).toNat) ∧
    (∃ t, exec (.cmp 1 2) (loaded demoCfg) = .next t) := ⟨⟨⟨_, rfl⟩, by decide⟩, ⟨⟨_, rfl⟩, by decide, by decide⟩, _, rfl⟩

theorem witness_PortFrame :
    (∃ t, exec (.inPort 1 2) (demo demoCfg 1 2 3) = .next t) ∧ (∃ t, exec (.mov 1 2) (demo demoCfg 1 2 3) = .next t) ∧
      ∀ a d, Instr.mov 1 2 ≠ .inPort a d := ⟨⟨_, rfl⟩, ⟨_, rfl⟩, by simp⟩

theorem witness_PcFrame :
    (∃ t, exec (.mov 1 2) ((demo demoCfg 1 2 3).setPc 0xFFFE) = .next t) ∧ (∀ cc imm8, Instr.mov 1 2 ≠ .bcc cc imm8) ∧
      (∀ a d, Instr.mov 1 2 ≠ .call a d) ∧ demoCfg.pcRegnum ∉ destsOf (.mov 1 2) :=
  ⟨⟨_, rfl⟩, by simp, by simp, by decide⟩

theorem witness_NoDrawNoFreeValue :
    NoDraw demoCfg ∧ (∀ a d, Instr.neg 1 2 ≠ .inPort a d) ∧ ∃ t, exec (.neg 1 2) (demo demoCfg 1 2 3) = .next t :=
  ⟨⟨by decide, by decide, by decide, by decide⟩, by simp, _, rfl⟩

/-- `ConfigAndMarkFixed`, `StepKeepsInvariant`: a step that stores, from a state with the invariant. -/
theorem witness_stepInvariants :
    Inv (atPc demoCfg 0x2105) ∧ (nextState (step (atPc demoCfg 0x2105))).isSome = true := by decide

theorem witness_ResetHasInvariant : Config.wf { demoCfg with resetPc := 0xFFFE, inSubop := some 15 } = true := by decide

theorem witness_RunKeepsInvariant : Inv (atPc demoCfg 0x2105) ∧ Inv State.reset := by decide

theorem witness_ResetState : Config.wf { demoCfg with resetPc := 0xFFFE } = true := by decide

theorem witness_FinalStateStays :
    ((demo demoCfg 0 0 0).setPc 0x0800).mark = none ∧
      demoCfg.haltAddr = some ((demo demoCfg 0 0 0).setPc 0x0800).pc := by decide

/-- A fault and a refusal at once, a mark set before, and a fault at the second step: `mov r1, PC` to an odd address. -/
theorem witness_StoppedRunNeverEnds :
    (∀ t, step (runFor 0 (atPc demoCfg 0xA00E)) ≠ .next t) ∧ (∀ t, step (runFor 0 (atPc demoCfg 0x007F)) ≠ .next t) ∧
      (∀ t, step (runFor 0 ((demo demoCfg 0 0 0).setMark (.refused (.notShown 0)))) ≠ .next t) ∧
      (∀ t, step (runFor 1 ((demo demoCfg 0x0309 0 0).withFetchWord 16 0xE10F)) ≠ .next t) := by
  have stops : ∀ s, nextState (step s) = none → ∀ t, step s ≠ .next t := by
    intro s hs t h
    rw [h] at hs
    cases hs
  exact ⟨stops _ rfl, stops _ rfl, stops _ rfl, stops _ rfl⟩

end Sys2Proof.Tests
end

section
/-! PROOFS. One inversion of `exec` for all 22 instructions: when it answers a next state, and which one. -/

namespace Sys2Proof.Machine

open Sys2Proof.Safety Sys2Proof.Claims

/-- The state an instruction leaves when nothing stops it (`exec_next_iff`). -/
@[simp] def effect (s : State) : Instr → State
  | .ldim imm8 d => writeResult s d (signExtend8 imm8) s.flags
  | .ldimh imm8 d => writeResult s d (joinBytes imm8 (lowByte (readReg s d))) s.flags
  | .ld8 a b d =>
    let loaded := extendLoaded s (readReg s d) (readByte s (effectiveAddress s a b))
    (writeResult s d loaded.1 s.flags).drew loaded.2
  | .ld16 a b d => writeResult s d (readWord s (effectiveAddress s a b)) s.flags
  | .str8 a b d => advance (writeByte s (effectiveAddress s a b) (lowByte (readReg s d)))
  | .str16 a b d => advance (writeWord s (effectiveAddress s a b) (readReg s d))
  | .add a b d => addInto a b d false s
  | .adc a b d => addInto a b d s.flags.c s
  | .and a b d => logicInto d (readReg s a &&& readReg s b) s
  | .or a b d => logicInto d (readReg s a ||| readReg s b) s
  | .xor a b d => logicInto d (readReg s a ^^^ readReg s b) s
  | .lsl a b d => shiftInto .lsl a b d s
  | .lsr a b d => shiftInto .lsr a b d s
  | .asr a b d => shiftInto .asr a b d s
  | .bcc cc imm8 => if condHolds s.cfg cc s.flags then s.setPc (branchTarget s.cfg s.pc imm8) else advance s
  | .mov a d => writeResult s d (readReg s a) s.flags
  | .neg a d =>
    let r := difference 0 (readReg s a)
    let carry := subtractionCarry s 0 (readReg s a)
    (writeResult s d r (flagsOf carry.1 r)).drew carry.2
  | .not a d => logicInto d (~~~(readReg s a)) s
  | .cmp a d =>
    let r := difference (readReg s d) (readReg s a)
    let carry := subtractionCarry s (readReg s d) (readReg s a)
    ((advance s).setFlags (flagsOf carry.1 r)).drew carry.2
  | .call a d => (s.setReg d (s.pc + 2)).setPc (readReg s a)
  | .swap a d => writeReg (writeReg (advance s) a (readReg s d)) d (readReg s a)
  | .inPort a d =>
    let port := readReg s a
    let flags := inFlags s s.draws
    ((writeResult s d (Config.portRead s.portHistory port s.draws) flags.1).logPortRead port).drew (1 + flags.2)

/-- Nothing stops the instruction: its register fields may be used (R19), its access is aligned and admitted (R35, R38,
R43), and a `bCC` has a condition number (R107). -/
def Accepts (s : State) : Instr → Prop
  | .ld8 a b d => OperandsOk s.cfg [a, b, d] ∧ loadByteFault s (effectiveAddress s a b) = none
  | .ld16 a b d => OperandsOk s.cfg [a, b, d] ∧ loadWordFault s (effectiveAddress s a b) = none
  | .str8 a b d => OperandsOk s.cfg [a, b, d] ∧ storeByteFault s (effectiveAddress s a b) = none
  | .str16 a b d => OperandsOk s.cfg [a, b, d] ∧ storeWordFault s (effectiveAddress s a b) = none
  | .bcc cc _ => cc.toNat ≤ 9
  | .mov a d => MovOperandsOk s.cfg a d
  | .call a d => CallOperandsOk s.cfg a d
  | i => OperandsOk s.cfg (fieldsOf i)

theorem withFields_next_state {i : Instr} {named guarded never : List RegNum} {s t u : State} :
    withFields i named guarded never s (.next u) = .next t ↔
      operandRefusal s.cfg (encode s.cfg i) named guarded never = none ∧ t = u := by
  rw [withFields_next, Host.Outcome.next.injEq, eq_comm (a := u)]

theorem withOperands_next_state {i : Instr} {fields : List RegNum} {s t u : State} :
    withOperands i fields s (.next u) = .next t ↔ OperandsOk s.cfg fields ∧ t = u := by
  rw [withOperands, withFields_next_state, operandRefusal_plain]

theorem withOperands_withAccess_next_state {i : Instr} {fields : List RegNum} {f : Option Fault} {s t u : State} :
    withOperands i fields s (withAccess f (.next u)) = .next t ↔ (OperandsOk s.cfg fields ∧ f = none) ∧ t = u := by
  rw [withOperands_next, withAccess_next, Host.Outcome.next.injEq, eq_comm (a := u)]
  exact and_assoc.symm

theorem execBcc_next_iff {cc : BitVec 4} {imm8 : Byte} {s t : State} :
    execBcc cc imm8 s = .next t ↔ cc.toNat ≤ 9 ∧ t = effect s (.bcc cc imm8) := by
  by_cases h : 9 < cc.toNat
  · simp [execBcc, raiseInvalidInstruction, h]
  · simp [execBcc, h, Nat.le_of_not_lt h, eq_comm (a := t)]

/-- `exec` answers a next state exactly where nothing stops the instruction, and then the state of its effect. -/
theorem exec_next_iff {i : Instr} {s t : State} : exec i s = .next t ↔ Accepts s i ∧ t = effect s i := by
  cases i with
  | ld8 | ld16 | str8 | str16 => exact withOperands_withAccess_next_state
  | bcc => exact execBcc_next_iff
  | mov => exact withFields_next_state.trans (and_congr_left' operandRefusal_mov)
  | call => exact withFields_next_state.trans (and_congr_left' operandRefusal_call)
  | _ => exact withOperands_next_state

theorem effect_cfg (s : State) (i : Instr) : (effect s i).cfg = s.cfg := by
  cases i with
  | bcc => simp only [effect]; split <;> rfl
  | _ => simp [addInto, logicInto, shiftInto]

/-- Every effect keeps the canonical form of memory: only the stores write it. -/
theorem effect_mem_wf {s : State} (i : Instr) (h : Memory.wf s.mem = true) : Memory.wf (effect s i).mem = true := by
  cases i with
  | str8 => exact writeByte_wf _ _ h
  | str16 => exact writeWord_wf _ _ h
  | bcc => simp only [effect]; split <;> exact h
  | _ => simpa [addInto, logicInto, shiftInto] using h

end Sys2Proof.Machine
end

section
/-! PROOFS. Runs (00_scope.md R6, R24): what one step of a run keeps, and how a run stops. -/

namespace Sys2Proof.Machine

open Sys2Proof.Safety

theorem step_keeps_cfg {s t : State} (h : step s = .next t) : t.cfg = s.cfg := by
  rcases step_next_cases h with ⟨-, rfl⟩ | ⟨w, i, -, -, hexec⟩
  · rfl
  · rw [(exec_next_iff.mp hexec).2, effect_cfg]

theorem step_keeps_mem_wf {s t : State} (h : step s = .next t) (hwf : Memory.wf s.mem = true) :
    Memory.wf t.mem = true := by
  rcases step_next_cases h with ⟨-, rfl⟩ | ⟨w, i, -, -, hexec⟩
  · exact hwf
  · rw [(exec_next_iff.mp hexec).2]
    exact effect_mem_wf i hwf

theorem step_keeps_inv {s t : State} (h : step s = .next t) (hinv : Inv s) : Inv t :=
  ⟨step_keeps_mem_wf h hinv.1, (step_keeps_cfg h).symm ▸ hinv.2⟩

/-- One step of a run takes the step, or sets a mark where the step answers no next state. -/
theorem advanceRun_cases (s : State) :
    step s = .next (advanceRun s) ∨ (∀ t, step s ≠ .next t) ∧ ∃ m, advanceRun s = s.setMark m := by
  unfold advanceRun
  cases h : step s with
  | next t => exact .inl rfl
  | fault f => exact .inr ⟨by simp, _, rfl⟩
  | refused r => exact .inr ⟨by simp, _, rfl⟩

theorem advanceRun_of_next {s t : State} (h : step s = .next t) : advanceRun s = t := by
  simp [advanceRun, h]

theorem advanceRun_cfg (s : State) : (advanceRun s).cfg = s.cfg := by
  rcases advanceRun_cases s with h | ⟨-, m, h⟩
  · exact step_keeps_cfg h
  · rw [h, State.setMark_cfg]

theorem advanceRun_keeps_inv {s : State} (hinv : Inv s) : Inv (advanceRun s) := by
  rcases advanceRun_cases s with h | ⟨-, m, h⟩
  · exact step_keeps_inv h hinv
  · rw [h]
    exact hinv

/-- What every step of a run keeps holds of every state of the run. -/
theorem runFor_keeps {P : State → Prop} (hstep : ∀ s, P s → P (advanceRun s)) (k : Nat) {s : State} (h : P s) :
    P (runFor k s) := by
  induction k generalizing s with
  | zero => exact h
  | succ k ih => exact ih (hstep s h)

theorem runFor_add (j k : Nat) (s : State) : runFor (j + k) s = runFor k (runFor j s) := by
  induction j generalizing s with
  | zero => rw [Nat.zero_add]; rfl
  | succ j ih => rw [Nat.succ_add]; exact ih (advanceRun s)

theorem runFor_cfg (k : Nat) (s : State) : (runFor k s).cfg = s.cfg :=
  runFor_keeps (P := fun u => u.cfg = s.cfg) (fun u hu => (advanceRun_cfg u).trans hu) k rfl

theorem step_marked_not_next {s : State} {m : Mark} (h : s.mark = some m) (t : State) : step s ≠ .next t := by
  unfold step
  rw [h]
  exact markedOutcome_not_next m t

theorem step_of_isFinal {s : State} (h : isFinal s = true) : step s = .next s := by
  have hm : s.mark = none := by
    simp only [isFinal, Bool.and_eq_true, Option.isNone_iff_eq_none] at h
    exact h.1
  simp [step, hm, h]

/-- A final state is the state of the run from then on (R152). -/
theorem runFor_of_isFinal {s : State} (h : isFinal s = true) (k : Nat) : runFor k s = s :=
  runFor_keeps (P := (· = s)) (fun _ hu => by rw [hu]; exact advanceRun_of_next (step_of_isFinal h)) k rfl

/-- A state whose step answers no next state is marked by the run, and stays without a next state (R6). -/
theorem advanceRun_keeps_stopped (s : State) (h : ∀ t, step s ≠ .next t) : ∀ t, step (advanceRun s) ≠ .next t := by
  rcases advanceRun_cases s with hnext | ⟨-, m, hmark⟩
  · exact absurd hnext (h _)
  · exact step_marked_not_next (m := m) (by rw [hmark, State.setMark_mark])

/-- Settles O57: `advanceRun` keeps the invariant and the configuration, so every state of the run has them. -/
theorem runKeepsInvariant : Obligations.RunKeepsInvariant := fun s k hinv =>
  ⟨runFor_keeps (P := Inv) (fun _ => advanceRun_keeps_inv) k hinv, runFor_cfg k s⟩

/-- Settles O60: `j + k` steps reach a state that is final, where the run ends after `k` steps, and also one that
has no next state, where it stopped after `j`; a final state has a next state, itself. -/
theorem stoppedRunNeverEnds : Obligations.StoppedRunNeverEnds := by
  rintro s j Q hstop ⟨k, hfinal, -⟩
  have hend : runFor (j + k) s = runFor k s := by rw [Nat.add_comm, runFor_add, runFor_of_isFinal hfinal]
  have hstopped : ∀ t, step (runFor (j + k) s) ≠ .next t := by
    rw [runFor_add]
    exact runFor_keeps advanceRun_keeps_stopped k hstop
  exact hstopped _ (hend ▸ step_of_isFinal hfinal)

end Sys2Proof.Machine
end

section
/-! PROOFS. The counter of draws (log 8): which operations do the same at every value of it. -/

namespace Sys2Proof.Machine

open Sys2Proof.Claims

@[simp] theorem State.drew_zero (s : State) : s.drew 0 = s := rfl

@[simp] theorem readReg_setDraws (s : State) (k : Nat) (r : RegNum) : readReg (s.setDraws k) r = readReg s r := rfl

@[simp] theorem writeReg_setDraws (s : State) (k : Nat) (r : RegNum) (v : Word) :
    writeReg (s.setDraws k) r v = (writeReg s r v).setDraws k := by
  rw [writeReg, writeReg, apply_ite (State.setDraws · k)]
  rfl

@[simp] theorem advance_setDraws (s : State) (k : Nat) : advance (s.setDraws k) = (advance s).setDraws k := rfl

@[simp] theorem writeResult_setDraws (s : State) (k : Nat) (d : RegNum) (v : Word) (f : Flags) :
    writeResult (s.setDraws k) d v f = (writeResult s d v f).setDraws k :=
  writeReg_setDraws ((advance s).setFlags f) k d v

theorem accepts_setDraws (s : State) (k : Nat) (i : Instr) : Accepts (s.setDraws k) i = Accepts s i := by
  cases i <;> rfl

theorem extendLoaded_setDraws {s : State} (h : s.cfg.ld8Ext ≠ .draw) (k : Nat) (old : Word) (v : Byte) :
    extendLoaded (s.setDraws k) old v = extendLoaded s old v := by
  cases he : s.cfg.ld8Ext <;> simp_all [extendLoaded]

theorem extendLoaded_draws_nothing {s : State} (h : s.cfg.ld8Ext ≠ .draw) (old : Word) (v : Byte) :
    (extendLoaded s old v).2 = 0 := by
  cases he : s.cfg.ld8Ext <;> simp_all [extendLoaded]

theorem subtractionCarry_setDraws {s : State} (h : s.cfg.subCarry ≠ .draw) (k : Nat) (m v : Word) :
    subtractionCarry (s.setDraws k) m v = subtractionCarry s m v := by
  cases he : s.cfg.subCarry <;> simp_all [subtractionCarry]

theorem subtractionCarry_draws_nothing {s : State} (h : s.cfg.subCarry ≠ .draw) (m v : Word) :
    (subtractionCarry s m v).2 = 0 := by
  cases he : s.cfg.subCarry <;> simp_all [subtractionCarry]

theorem shift_setDraws {s : State} (h : s.cfg.shiftEdge ≠ .draw) (k : Nat) (kind : ShiftKind) (v n : Word) :
    shift (s.setDraws k) kind v n = shift s kind v n := by
  cases he : s.cfg.shiftEdge <;> simp_all [shift, shiftEdge]

theorem shift_draws_nothing {s : State} (h : s.cfg.shiftEdge ≠ .draw) (kind : ShiftKind) (v n : Word) :
    (shift s kind v n).drawn = 0 := by
  unfold shift
  split
  · rfl
  · cases he : s.cfg.shiftEdge <;> simp_all [shiftEdge]

theorem shiftInto_setDraws {s : State} (h : s.cfg.shiftEdge ≠ .draw) (k : Nat) (kind : ShiftKind) (a b d : RegNum) :
    shiftInto kind a b d (s.setDraws k) = (shiftInto kind a b d s).setDraws k := by
  simp [shiftInto, shift_setDraws h, shift_draws_nothing h]

/-- Where no parameter is a draw, the effect of an instruction other than `in` commutes with changing the counter. -/
theorem effect_setDraws {s : State} {i : Instr} (hcfg : NoDraw s.cfg) (hin : ∀ a d, i ≠ .inPort a d) (k : Nat) :
    effect (s.setDraws k) i = (effect s i).setDraws k := by
  obtain ⟨hload, hsub, hshift, -⟩ := hcfg
  cases i with
  | ld8 a b d =>
    have hea : readByte (s.setDraws k) (effectiveAddress (s.setDraws k) a b) = readByte s (effectiveAddress s a b) := rfl
    simp [hea, extendLoaded_setDraws hload, extendLoaded_draws_nothing hload]
  | neg a d => simp [subtractionCarry_setDraws hsub, subtractionCarry_draws_nothing hsub]
  | cmp a d =>
    simp only [effect, readReg_setDraws, subtractionCarry_setDraws hsub, subtractionCarry_draws_nothing hsub]
    rfl
  | lsl | lsr | asr => exact shiftInto_setDraws hshift k _ _ _ _
  | bcc =>
    simp only [effect, apply_ite (State.setDraws · k)]
    rfl
  | swap a d => simp
  | str8 | str16 | call => rfl
  | inPort a d => exact absurd rfl (hin a d)
  | _ => exact writeResult_setDraws s k _ _ _

/-- Settles O53: acceptance never looks at the counter, and without draws the effect commutes with changing it. -/
theorem noDrawNoFreeValue : Obligations.NoDrawNoFreeValue := by
  intro i s t k hcfg hin hexec
  obtain ⟨haccepts, rfl⟩ := exec_next_iff.mp hexec
  exact exec_next_iff.mpr ⟨(accepts_setDraws s k i).mpr haccepts, (effect_setDraws hcfg hin k).symm⟩

end Sys2Proof.Machine
end

section
/-! PROOFS. What one write to a register number leaves, where it names PC and where not (10_state.md R14, R19). -/

namespace Sys2Proof.Machine

theorem writeReg_pcRegnum {s : State} {d : RegNum} (v : Word) (h : d = s.cfg.pcRegnum) :
    writeReg s d v = s.setPc v := if_pos h

theorem writeReg_general {s : State} {d : RegNum} (v : Word) (h : d ≠ s.cfg.pcRegnum) :
    writeReg s d v = s.setReg d v := if_neg h

theorem writeReg_pc_general {s : State} {d : RegNum} (v : Word) (h : d ≠ s.cfg.pcRegnum) :
    (writeReg s d v).pc = s.pc := by rw [writeReg_general v h, State.setReg_pc]

/-- A write changes no slot but that of the register it names; the slot of number PC_REGNUM (log 9) it never changes. -/
theorem writeReg_reg_frame {s : State} {d r : RegNum} (v : Word) (h : r ≠ d ∨ r = s.cfg.pcRegnum) :
    (writeReg s d v).regs[r] = s.regs[r] := by
  by_cases hd : d = s.cfg.pcRegnum
  · rw [writeReg_pcRegnum v hd, State.setPc_regs]
  · rw [writeReg_general v hd]
    exact setReg_other s v (h.elim id fun hr hrd => hd (hrd ▸ hr))

theorem writeReg_drew (s : State) (d : RegNum) (v : Word) (k : Nat) :
    (writeReg s d v).drew k = writeReg (s.drew k) d v := by
  rw [writeReg, writeReg, apply_ite (State.drew · k)]
  rfl

theorem writeReg_logPortRead (s : State) (d : RegNum) (v p : Word) :
    (writeReg s d v).logPortRead p = writeReg (s.logPortRead p) d v := by
  rw [writeReg, writeReg, apply_ite (State.logPortRead · p)]
  rfl

theorem writeResult_pcRegnum (s : State) (v : Word) (f : Flags) :
    writeResult s s.cfg.pcRegnum v f = (s.setFlags f).setPc v := writeReg_pcRegnum v rfl

theorem writeResult_reg_frame {s : State} {d r : RegNum} (v : Word) (f : Flags) (h : r ≠ d ∨ r = s.cfg.pcRegnum) :
    (writeResult s d v f).regs[r] = s.regs[r] :=
  writeReg_reg_frame (s := (advance s).setFlags f) v h

theorem writeResult_pc_general {s : State} {d : RegNum} (v : Word) (f : Flags) (h : d ≠ s.cfg.pcRegnum) :
    (writeResult s d v f).pc = s.pc + 2 :=
  writeReg_pc_general (s := (advance s).setFlags f) v h

/-- Settles O12: the two cases of `readReg`. -/
theorem registerRead : Obligations.RegisterRead := by
  intro s r
  refine ⟨readReg_general, fun h => ?_⟩
  rw [readReg_pc h, BitVec.toNat_add]

end Sys2Proof.Machine
end

section
/-! PROOFS. What every effect leaves alone (10_state.md R14, R17, R24), one lemma per part of the state. -/

namespace Sys2Proof.Machine

open Sys2Proof.Claims

theorem effect_mark (s : State) (i : Instr) : (effect s i).mark = s.mark := by
  cases i with
  | bcc => simp only [effect]; split <;> rfl
  | _ => simp [addInto, logicInto, shiftInto]

/-- A register that is no destination keeps its value, and so does the slot of number PC_REGNUM: `call` alone writes its
destination without asking whether it is PC, and is not accepted there (R114). -/
theorem effect_reg_frame {s : State} {i : Instr} {r : RegNum} (haccepts : Accepts s i)
    (hr : r ∉ destsOf i ∨ r = s.cfg.pcRegnum) : (effect s i).regs[r] = s.regs[r] := by
  cases i with
  | str8 | str16 | cmp => rfl
  | bcc => simp only [effect]; split <;> rfl
  | call a d =>
    obtain ⟨-, hd, -⟩ := haccepts
    refine setReg_other s _ ?_
    rintro rfl
    simp [destsOf, hd] at hr
  | swap a d =>
    have ha : r ≠ a ∨ r = s.cfg.pcRegnum := hr.imp_left (by simp +contextual [destsOf])
    have hd : r ≠ d ∨ r = s.cfg.pcRegnum := hr.imp_left (by simp +contextual [destsOf])
    calc (effect s (.swap a d)).regs[r]
        = (writeReg (advance s) a (readReg s d)).regs[r] := writeReg_reg_frame _ (by simpa using hd)
      _ = s.regs[r] := writeReg_reg_frame _ ha
  | _ => exact writeResult_reg_frame _ _ (hr.imp_left (by simp [destsOf]))

theorem effect_flags {i : Instr} (h : keepsFlags i = true) (s : State) : (effect s i).flags = s.flags := by
  cases i with
  | bcc => simp only [effect]; split <;> rfl
  | add | adc | and | or | xor | lsl | lsr | asr | neg | not | cmp | inPort => cases h
  | _ => simp

theorem logicInto_carry (d : RegNum) (r : Word) (s : State) : (logicInto d r s).flags.c = s.flags.c := by
  rw [logicInto, writeResult_flags, setNZ]

theorem effect_carry {i : Instr} (h : keepsCarry i = true) (s : State) : (effect s i).flags.c = s.flags.c := by
  cases i with
  | and | or | xor | not => exact logicInto_carry _ _ _
  | _ => cases h

theorem effect_pc {s : State} {i : Instr} (hbcc : ∀ cc imm8, i ≠ .bcc cc imm8) (hcall : ∀ a d, i ≠ .call a d)
    (hd : s.cfg.pcRegnum ∉ destsOf i) : (effect s i).pc = s.pc + 2 := by
  cases i with
  | str8 | str16 | cmp => rfl
  | bcc cc imm8 => exact absurd rfl (hbcc cc imm8)
  | call a d => exact absurd rfl (hcall a d)
  | swap a d =>
    simp only [destsOf, List.mem_cons, List.not_mem_nil, or_false, not_or] at hd
    obtain ⟨ha, hd⟩ := hd
    calc (effect s (.swap a d)).pc
        = (writeReg (advance s) a (readReg s d)).pc := writeReg_pc_general _ (by simpa using Ne.symm hd)
      _ = s.pc + 2 := writeReg_pc_general _ (Ne.symm ha)
  | _ => exact writeResult_pc_general _ _ fun h => hd (List.mem_singleton.mpr h.symm)

/-- Settles O48, by the register frame of the effect. -/
theorem registerFrame : Obligations.RegisterFrame := by
  intro i s t hexec
  obtain ⟨haccepts, rfl⟩ := exec_next_iff.mp hexec
  exact ⟨fun r hr => effect_reg_frame haccepts (.inl hr), effect_reg_frame haccepts (.inr rfl)⟩

/-- Settles O49, by the flags of the effect. -/
theorem flagFrame : Obligations.FlagFrame := by
  intro i s t hexec
  obtain ⟨-, rfl⟩ := exec_next_iff.mp hexec
  exact ⟨fun h => effect_flags h s, fun h => effect_carry h s⟩

/-- Settles O52, by the pc of the effect. -/
theorem pcFrame : Obligations.PcFrame := by
  intro i s t hexec hbcc hcall hd
  obtain ⟨-, rfl⟩ := exec_next_iff.mp hexec
  rw [effect_pc hbcc hcall hd, BitVec.toNat_add]
  rfl

/-- Settles O54: a marked state has no next state, and no effect writes the mark or the configuration. -/
theorem configAndMarkFixed : Obligations.ConfigAndMarkFixed := by
  intro s t h
  have hs : s.mark = none := Option.eq_none_iff_forall_ne_some.mpr fun m hm => step_marked_not_next hm t h
  refine ⟨step_keeps_cfg h, hs, ?_⟩
  rcases step_next_cases h with ⟨-, rfl⟩ | ⟨w, i, -, -, hexec⟩
  · exact hs
  · rw [(exec_next_iff.mp hexec).2, effect_mark, hs]

end Sys2Proof.Machine
end

section
/-! PROOFS. The invariant of memory and configuration, at a step and at reset (10_state.md R24, R25). -/

namespace Sys2Proof.Machine

/-- Settles O55: no step changes the configuration, and memory changes only by the two stores, which write through
`Memory.write`. -/
theorem stepKeepsInvariant : Obligations.StepKeepsInvariant := fun _ _ hinv hstep => step_keeps_inv hstep hinv

/-- Settles O56: memory is empty at reset, and the launch is an allowed configuration. -/
theorem resetHasInvariant : Obligations.ResetHasInvariant :=
  have hreset (cfg : Config) (hcfg : cfg.wf = true) : Safety.Inv (State.resetWith cfg) := ⟨Memory.wf_nil, hcfg⟩
  ⟨hreset, hreset Config.launch (by decide)⟩

/-- Settles O58: `RESET_PC` is even by `Config.wf`. -/
theorem resetState : Obligations.ResetState := by
  intro cfg hcfg
  have hpc : isOdd cfg.resetPc = false := by
    simp only [Config.wf, Bool.and_eq_true, Bool.not_eq_true'] at hcfg
    exact hcfg.2
  exact ⟨rfl, rfl, rfl, rfl, (isOdd_eq_false _).mp hpc⟩

end Sys2Proof.Machine
end

section
/-! PROOFS. Refused register fields (10_state.md R19, R114; 60_exceptions.md R136). -/

namespace Sys2Proof.Machine

open Sys2Proof.Claims

/-- The register fields that may not name PC at all: rD of `call` (R114). -/
def neverPcOf : Instr → List RegNum
  | .call _ d => [d]
  | _ => []

/-- Every instruction goes through `withFields` on its own fields before it does anything; a `bCC` has none. -/
theorem exec_refused {i : Instr} {s : State} {r : Refusal}
    (h : operandRefusal s.cfg (encode s.cfg i) (fieldsOf i) (guardedOf i) (neverPcOf i) = some r) :
    exec i s = .refused r := by
  have hwith (k : Result) : withFields i (fieldsOf i) (guardedOf i) (neverPcOf i) s k = .refused r := by
    rw [withFields, h]
  cases i with
  | bcc => simp [operandRefusal, fieldsOf, guardedOf, neverPcOf] at h
  | _ => exact hwith _

theorem operandRefusal_reserved {cfg : Config} {w : Option Word} {named guarded never : List RegNum}
    (h : ∃ r ∈ named, r ∈ cfg.reservedRegs) :
    operandRefusal cfg w named guarded never = some (.reservedReg w) := by
  simp [operandRefusal, h]

theorem operandRefusal_pcOperand {cfg : Config} {w : Option Word} {named guarded never : List RegNum}
    (hreserved : ∀ r ∈ named, r ∉ cfg.reservedRegs)
    (hpc : cfg.admitPcOperands = false ∧ cfg.pcRegnum ∈ guarded ∨ cfg.pcRegnum ∈ never) :
    operandRefusal cfg w named guarded never = some (.pcOperand w) := by
  have hnone : ¬ ∃ r ∈ named, r ∈ cfg.reservedRegs := by push Not; exact hreserved
  rcases hpc with ⟨hadmit, hguarded⟩ | hnever
  · simp [operandRefusal, hnone, hadmit, hguarded]
  · simp [operandRefusal, hnone, hnever]

/-- Settles O13: the clauses are the refusals of `operandRefusal`, the reserved register before PC. -/
theorem operandRefusals : Obligations.OperandRefusals := by
  refine fun i s => ⟨fun h => ?_, fun hreserved hadmit hpc => ?_, ?_⟩
  · exact exec_refused (operandRefusal_reserved h)
  · exact exec_refused (operandRefusal_pcOperand hreserved (.inl ⟨hadmit, hpc⟩))
  · rintro a d rfl ha hd hpc
    exact exec_refused (operandRefusal_pcOperand (by simp [fieldsOf, ha, hd]) (.inr (by simp [neverPcOf, hpc])))

end Sys2Proof.Machine
end

section
/-! PROOFS. The same instruction with another destination (10_state.md R19, R20): what it does is one write to rD of a
value that does not depend on rD, after everything else is done. -/

namespace Sys2Proof.Machine

open Sys2Proof.Safety Sys2Proof.Claims

/-- `u` is `s` with pc advanced, and with everything but the registers and the configuration open: the state that an
instruction writes its result to. -/
structure ReadyToWrite (s u : State) : Prop where
  regs : u.regs = s.regs
  pc : u.pc = s.pc + 2
  cfg : u.cfg = s.cfg

theorem retarget_self {i : Instr} {d : RegNum} (h : destsOf i = [d]) : retarget i d = i := by
  cases i <;> cases h <;> rfl

theorem extendLoaded_old_irrelevant {s : State} (h : s.cfg.ld8Ext ≠ .keep) (old old' : Word) (v : Byte) :
    extendLoaded s old v = extendLoaded s old' v := by
  cases he : s.cfg.ld8Ext <;> simp_all [extendLoaded]

/-- With its destination at any `q`, an instruction that does not read rD writes one and the same value to `q`, into one
and the same state. -/
theorem effect_retarget {s : State} {i : Instr} {d : RegNum} (hd : destsOf i = [d])
    (hread : readsDest s.cfg i = false) (hcall : ∀ a r, i ≠ .call a r) :
    ∃ u v, (∀ q, effect s (retarget i q) = writeReg u q v) ∧ ReadyToWrite s u := by
  cases i with
  | str8 | str16 | bcc | cmp | swap => cases hd
  | call a r => exact absurd rfl (hcall a r)
  | ldimh => cases hread
  | ld8 a b r =>
    have hloaded (q : RegNum) := extendLoaded_old_irrelevant (of_decide_eq_false hread) (readReg s q) 0
      (readByte s (effectiveAddress s a b))
    exact ⟨_, _, fun q => (congrArg (fun l : Word × Nat => (writeResult s q l.1 s.flags).drew l.2) (hloaded q)).trans
      (writeReg_drew _ _ _ _), rfl, rfl, rfl⟩
  | lsl | lsr | asr | neg => exact ⟨_, _, fun q => writeReg_drew _ _ _ _, rfl, rfl, rfl⟩
  | inPort a r =>
    exact ⟨_, _, fun q => (congrArg (State.drew · _) (writeReg_logPortRead _ _ _ _)).trans (writeReg_drew _ _ _ _),
      rfl, rfl, rfl⟩
  | _ => exact ⟨_, _, fun q => rfl, rfl, rfl, rfl⟩

/-- Register fields that may be used stay so when the last is replaced by one that may. -/
theorem operandsOk_replace_last {cfg : Config} {fields : List RegNum} {d q : RegNum}
    (h : OperandsOk cfg (fields ++ [q])) (hreserved : d ∉ cfg.reservedRegs)
    (hpc : cfg.admitPcOperands = true ∨ d ≠ cfg.pcRegnum) :
    OperandsOk cfg (fields ++ [d]) := by
  simp only [OperandsOk, List.forall_mem_append, List.forall_mem_singleton] at h ⊢
  tauto

theorem accepts_of_retarget {s : State} {i : Instr} {d q : RegNum} (hd : destsOf i = [d])
    (hcall : ∀ a r, i ≠ .call a r) (hreserved : d ∉ s.cfg.reservedRegs)
    (hpc : s.cfg.admitPcOperands = true ∨ d ≠ s.cfg.pcRegnum) (h : Accepts s (retarget i q)) : Accepts s i := by
  cases i with
  | str8 | str16 | bcc | cmp | swap => cases hd
  | call a r => exact absurd rfl (hcall a r)
  | ldim | ldimh =>
    cases hd
    exact operandsOk_replace_last (fields := []) h hreserved hpc
  | ld8 a b | ld16 a b =>
    cases hd
    exact ⟨operandsOk_replace_last (fields := [a, b]) h.1 hreserved hpc, h.2⟩
  | mov a r =>
    cases hd
    obtain ⟨⟨ha, -⟩, hadmit⟩ := h
    exact ⟨⟨ha, hreserved⟩, hadmit⟩
  | add a b | adc a b | and a b | or a b | xor a b | lsl a b | lsr a b | asr a b =>
    cases hd
    exact operandsOk_replace_last (fields := [a, b]) h hreserved hpc
  | neg a | not a | inPort a =>
    cases hd
    exact operandsOk_replace_last (fields := [a]) h hreserved hpc

/-- An instruction that runs with the destination `q` runs with its own: the two next states are one state with the same
value written to the one or to the other. -/
theorem exec_of_retarget {s t : State} {i : Instr} {d q : RegNum} (hd : destsOf i = [d])
    (hread : readsDest s.cfg i = false) (hcall : ∀ a r, i ≠ .call a r) (hreserved : d ∉ s.cfg.reservedRegs)
    (hpc : s.cfg.admitPcOperands = true ∨ d ≠ s.cfg.pcRegnum) (h : exec (retarget i q) s = .next t) :
    ∃ u v, t = writeReg u q v ∧ exec i s = .next (writeReg u d v) ∧ ReadyToWrite s u := by
  obtain ⟨haccepts, rfl⟩ := exec_next_iff.mp h
  obtain ⟨u, v, heffect, hu⟩ := effect_retarget hd hread hcall
  refine ⟨u, v, heffect q, exec_next_iff.mpr ⟨accepts_of_retarget hd hcall hreserved hpc haccepts, ?_⟩, hu⟩
  rw [← heffect d, retarget_self hd]

theorem mem_fieldsOf_of_destsOf {i : Instr} {d : RegNum} (h : destsOf i = [d]) : d ∈ fieldsOf i := by
  cases i <;> cases h <;> simp [fieldsOf]

/-- Settles O14: the value that `q` receives is written to pc instead. -/
theorem pcDestinationAdmitted : Obligations.PcDestinationAdmitted := by
  intro i q s t hadmit hreserved hd hread hcall hq hexec
  obtain ⟨u, v, rfl, hi, hu⟩ :=
    exec_of_retarget hd hread hcall (hreserved _ (mem_fieldsOf_of_destsOf hd)) (.inl hadmit) hexec
  rw [← hu.cfg] at hq hi
  rw [writeReg_pcRegnum v rfl] at hi
  rw [writeReg_general v hq]
  exact ⟨u.setPc v, hi, (setReg_self u q v).symm, hu.regs, rfl, rfl, rfl, rfl, rfl, rfl⟩

end Sys2Proof.Machine
end

section
/-! PROOFS. Operands are read before anything is written (10_state.md R20), and PC both read and written (R19). -/

namespace Sys2Proof.Machine

open Sys2Proof.Safety Sys2Proof.Claims

/-- `swap` of a register that is not PC with itself only advances pc (R20). -/
theorem effect_swap_self {s : State} {r : RegNum} (h : r ≠ s.cfg.pcRegnum) :
    effect s (.swap r r) = s.setPc (s.pc + 2) := by
  have hset (u : State) (hu : u.regs[r] = s.regs[r]) : u.setReg r s.regs[r] = u := by
    rw [← hu]
    simp [State.setReg]
  rw [effect, readReg_general h, writeReg_general (s := advance s) _ h, hset (advance s) rfl,
    writeReg_general (s := advance s) _ h, hset (advance s) rfl, advance]

/-- Settles O16: the first part as in O14 with a register in place of pc; the examples of R20 by their effects. -/
theorem operandsReadFirst : Obligations.OperandsReadFirst := by
  refine ⟨fun i d q s t hd hread hcall hreserved hpc hq hexec => ?_, fun r s hreserved hpc => ⟨?_, ?_, ?_⟩⟩
  · obtain ⟨u, v, rfl, hi, hu⟩ := exec_of_retarget hd hread hcall hreserved (.inr hpc) hexec
    rw [← hu.cfg] at hpc hq
    rw [writeReg_general v hpc] at hi
    rw [writeReg_general v hq, ← hu.regs]
    exact ⟨u.setReg d v, hi, by rw [setReg_self, setReg_self], fun r hr => setReg_other u v hr,
      rfl, rfl, rfl, rfl, rfl, rfl, rfl⟩
  · have hok : OperandsOk s.cfg [r, r, r] := by simp [OperandsOk, hreserved, hpc]
    refine ⟨_, exec_next_iff.mpr ⟨hok, rfl⟩, ?_⟩
    rw [effect, addInto, (writeResult_wroteDest _ _ hpc).1, readReg_general hpc]
    simp [sumResult, exactSum, BitVec.ofNat_add]
  · refine ⟨_, exec_next_iff.mpr ⟨⟨⟨hreserved, hreserved⟩, hpc, .inr hpc⟩, rfl⟩, ?_, ?_⟩
    · exact readReg_general hpc
    · exact setReg_self s r _
  · have hok : OperandsOk s.cfg [r, r] := by simp [OperandsOk, hreserved, hpc]
    exact ⟨_, exec_next_iff.mpr ⟨hok, rfl⟩, effect_swap_self hpc⟩

/-- `swap` of PC and a register, in either order: PC shows A + `PC_READ_BIAS` (R115, R19). -/
theorem effect_swap_pc {s : State} {r : RegNum} (h : r ≠ s.cfg.pcRegnum) :
    effect s (.swap r s.cfg.pcRegnum) = (s.setReg r (s.pc + s.cfg.pcReadBias)).setPc s.regs[r] ∧
    effect s (.swap s.cfg.pcRegnum r) = (s.setReg r (s.pc + s.cfg.pcReadBias)).setPc s.regs[r] := by
  constructor
  · rw [effect, readReg_general h, readReg_pc rfl, writeReg_general (s := advance s) _ h,
      writeReg_pcRegnum _ (by simp)]
    rfl
  · rw [effect, readReg_general h, readReg_pc rfl, writeReg_general _ (by simpa using h),
      writeReg_pcRegnum _ (by simp)]
    rfl

theorem effect_swap_pc_self (s : State) :
    effect s (.swap s.cfg.pcRegnum s.cfg.pcRegnum) = s.setPc (s.pc + s.cfg.pcReadBias) := by
  rw [effect, readReg_pc rfl, writeReg_pcRegnum _ (by simp), writeReg_pcRegnum _ (by simp)]
  rfl

/-- Settles O15: each instruction is accepted, and its effect writes pc. -/
theorem pcReadAndWritten : Obligations.PcReadAndWritten := by
  intro s hadmit hpc
  have hok {fields : List RegNum} (h : ∀ r ∈ fields, r ∉ s.cfg.reservedRegs) : OperandsOk s.cfg fields :=
    ⟨h, .inl hadmit⟩
  refine ⟨fun imm8 => ?_, fun a b hkeep ha hb haccess => ?_, fun r hr hrpc => ⟨?_, ?_⟩, ?_⟩
  · refine exec_next_iff.mpr ⟨hok (by simp [fieldsOf, hpc]), ?_⟩
    rw [effect, writeResult_pcRegnum, readReg_pc rfl]
    rfl
  · refine exec_next_iff.mpr ⟨⟨hok (by simp [ha, hb, hpc]), byteFault_none.mpr haccess⟩, ?_⟩
    simp only [effect, extendLoaded, hkeep, writeResult_pcRegnum, readReg_pc]
    rfl
  · exact exec_next_iff.mpr ⟨hok (by simp [fieldsOf, hr, hpc]), (effect_swap_pc hrpc).1.symm⟩
  · exact exec_next_iff.mpr ⟨hok (by simp [fieldsOf, hr, hpc]), (effect_swap_pc hrpc).2.symm⟩
  · exact exec_next_iff.mpr ⟨hok (by simp [fieldsOf, hpc]), (effect_swap_pc_self s).symm⟩

end Sys2Proof.Machine
end

section
/-! PROOFS. Bytes in words and words in memory (20_memory.md R34). -/

namespace Sys2Proof.Machine

theorem joinBytes_toNat (high low : Byte) : (joinBytes high low).toNat = high.toNat * 256 + low.toNat := by
  have happend : (joinBytes high low).toNat = high.toNat <<< 8 ||| low.toNat := BitVec.toNat_append high low
  rw [happend, ← Nat.shiftLeft_add_eq_or_of_lt low.isLt, Nat.shiftLeft_eq]

theorem highByte_toNat (v : Word) : (highByte v).toNat = v.toNat / 256 := by
  have hlt : v.toNat / 256 < 256 := by omega
  rw [highByte, BitVec.extractLsb'_toNat, Nat.shiftRight_eq_div_pow]
  exact Nat.mod_eq_of_lt hlt

theorem lowByte_toNat (v : Word) : (lowByte v).toNat = v.toNat % 256 := by
  rw [lowByte, BitVec.extractLsb'_toNat, Nat.shiftRight_zero]

theorem readByte_writeWord_first (s : State) (addr v : Word) :
    readByte (writeWord s addr v) addr = firstByte s.cfg.endian v := by
  rw [readByte, writeWord_read, if_neg (succ_toNat_ne addr).symm, if_pos rfl]

theorem readByte_writeWord_second (s : State) (addr v : Word) :
    readByte (writeWord s addr v) (addr + 1) = secondByte s.cfg.endian v := by
  rw [readByte, writeWord_read, if_pos rfl]

/-- Settles O20: under each `ENDIAN` the word is the join of its two bytes in that order, and a word write lays its two
halves out in the same order. -/
theorem byteOrder : Obligations.ByteOrder := by
  intro s addr v
  rw [readByte_writeWord_first, readByte_writeWord_second, readWord]
  constructor
  · intro hbig
    rw [hbig]
    exact ⟨joinBytes_toNat _ _, highByte_toNat v, lowByte_toNat v⟩
  · intro hlittle
    rw [hlittle]
    exact ⟨joinBytes_toNat _ _, lowByte_toNat v, highByte_toNat v⟩

end Sys2Proof.Machine
end

section
/-! PROOFS. The prefetch window (20_memory.md R43). -/

namespace Sys2Proof.Machine

open Sys2Proof.Safety

/-- An address lies `k` bytes past pc, modulo 2^16, exactly when its distance from pc is `k` modulo 2^16. -/
theorem eq_pc_add_iff {pc addr : Word} {k : Nat} :
    addr = pc + BitVec.ofNat 16 k ↔ (addr - pc).toNat = k % 65536 := by
  rw [← BitVec.toNat_ofNat k 16, BitVec.toNat_inj, BitVec.sub_eq_iff_eq_add, BitVec.add_comm]

/-- Settles O21: the distance from pc is the `k` of R43 itself below 2^16, and the one `k` above that, 2^16 at a bias of
$FFFF, is the distance 0. -/
theorem windowIsTheRange : Obligations.WindowIsTheRange := by
  intro cfg pc addr
  have hbias : cfg.branchBias.toNat < 65536 := cfg.branchBias.isLt
  have hdist : (addr - pc).toNat < 65536 := (addr - pc).isLt
  simp only [inPrefetchWindow, InWindow, eq_pc_add_iff, Bool.or_eq_true, Bool.and_eq_true, decide_eq_true_eq]
  constructor
  · rintro (⟨hlow, hhigh⟩ | hwrap)
    · exact ⟨(addr - pc).toNat, hlow, hhigh, (Nat.mod_eq_of_lt hdist).symm⟩
    · exact ⟨(addr - pc).toNat + 65536, by omega, hwrap, by omega⟩
  · rintro ⟨k, hlow, hhigh, hk⟩
    rcases Nat.lt_or_ge k 65536 with hlt | hge
    · left
      omega
    · right
      omega

end Sys2Proof.Machine
end

section
/-! PROOFS. What the effects leave of memory and of the port history (20_memory.md R32, R33). -/

namespace Sys2Proof.Machine

/-- No effect but a store's writes memory (R33). -/
theorem effect_mem {i : Instr} (hstr8 : ∀ a b d, i ≠ .str8 a b d) (hstr16 : ∀ a b d, i ≠ .str16 a b d) (s : State) :
    (effect s i).mem = s.mem := by
  cases i with
  | str8 a b d => exact absurd rfl (hstr8 a b d)
  | str16 a b d => exact absurd rfl (hstr16 a b d)
  | bcc => simp only [effect]; split <;> rfl
  | _ => simp [addInto, logicInto, shiftInto]

theorem effect_str8_read {s : State} {a b d : RegNum} {addr : Nat} (h : addr ≠ (effectiveAddress s a b).toNat) :
    Memory.read (effect s (.str8 a b d)).mem addr = Memory.read s.mem addr :=
  Memory.read_write_ne s.mem _ h

theorem effect_str16_read {s : State} {a b d : RegNum} {addr : Nat} (h : addr ≠ (effectiveAddress s a b).toNat)
    (hsucc : addr ≠ (effectiveAddress s a b + 1).toNat) :
    Memory.read (effect s (.str16 a b d)).mem addr = Memory.read s.mem addr := by
  rw [effect, advance_mem, writeWord_read, if_neg hsucc, if_neg h]

/-- Settles O50: a store leaves every byte outside its own, and every other effect leaves all of memory. -/
theorem memoryFrame : Obligations.MemoryFrame := by
  intro i s t addr hexec hstr8 hstr16
  obtain ⟨-, rfl⟩ := exec_next_iff.mp hexec
  cases i with
  | str8 a b d => exact effect_str8_read (hstr8 a b d rfl)
  | str16 a b d =>
    obtain ⟨h, hsucc⟩ := hstr16 a b d rfl
    exact effect_str16_read h hsucc
  | _ => rw [effect_mem (by simp) (by simp)]

/-- No effect but that of `in` touches the port history (R33). -/
theorem effect_portHistory {i : Instr} (hin : ∀ a d, i ≠ .inPort a d) (s : State) :
    (effect s i).portHistory = s.portHistory := by
  cases i with
  | inPort a d => exact absurd rfl (hin a d)
  | bcc => simp only [effect]; split <;> rfl
  | _ => simp [addInto, logicInto, shiftInto]

/-- `in` reads port rA once (R32). -/
theorem effect_inPort_portHistory (s : State) (a d : RegNum) :
    (effect s (.inPort a d)).portHistory = s.portHistory ++ [.read (readReg s a)] := by
  simp

/-- Settles O51, by the port history of the effect. -/
theorem portFrame : Obligations.PortFrame := by
  intro i s t hexec
  obtain ⟨-, rfl⟩ := exec_next_iff.mp hexec
  constructor
  · rintro a d rfl
    exact effect_inPort_portHistory s a d
  · exact fun hin => effect_portHistory hin s

end Sys2Proof.Machine
end

section
/-! PROOFS. Faults of the fetch, in the order of 60_exceptions.md R136: alignment, then admission, the first byte before
the second (20_memory.md R36, R38). -/

namespace Sys2Proof.Machine

open Sys2Proof.Safety Sys2Proof.Claims

theorem byteFault_of_not_admitted {cfg : Config} {addr : Word} {kind : AccessKind} (h : admitted cfg addr kind = false) :
    byteFault cfg addr kind = some (.accessNotAdmitted addr kind) := by
  simp [byteFault, h]

theorem wordFault_first {cfg : Config} {addr : Word} {kind : AccessKind} (h : admitted cfg addr kind = false) :
    wordFault cfg addr kind = some (.accessNotAdmitted addr kind) := by
  rw [wordFault, byteFault_of_not_admitted h, Option.some_or]

theorem wordFault_second {cfg : Config} {addr : Word} {kind : AccessKind} (hfirst : admitted cfg addr kind = true)
    (hsecond : admitted cfg (addr + 1) kind = false) :
    wordFault cfg addr kind = some (.accessNotAdmitted (addr + 1) kind) := by
  rw [wordFault, byteFault_none.mpr hfirst, Option.none_or, byteFault_of_not_admitted hsecond]

theorem fetchWord_misaligned {s : State} (h : isOdd s.pc = true) : fetchWord s = .error (.misalignedFetch s.pc) := by
  simp [fetchWord, h]

theorem fetchWord_of_wordFault {s : State} {f : Fault} (heven : isOdd s.pc = false)
    (h : wordFault s.cfg s.pc .fetch = some f) : fetchWord s = .error f := by
  simp [fetchWord, heven, h]

/-- A state that is neither marked nor at the end of the run fetches, and a fault of the fetch is the step's. -/
theorem step_of_fetchWord_error {s : State} {f : Fault} (hrun : Running s) (h : fetchWord s = .error f) :
    step s = .fault f := by
  obtain ⟨hmark, hhalt⟩ := hrun
  have hfinal : isFinal s = false := by simp [isFinal, hhalt]
  simp [step, hmark, hfinal, h]

/-- Settles O9, by the three faults that a fetch can answer. -/
theorem fetchFaults : Obligations.FetchFaults := by
  refine fun s hrun => ⟨fun hodd => ?_, fun heven hfirst => ?_, fun heven hfirst hsecond => ?_⟩
  · exact step_of_fetchWord_error hrun (fetchWord_misaligned ((isOdd_iff _).mpr hodd))
  · exact step_of_fetchWord_error hrun (fetchWord_of_wordFault ((isOdd_eq_false _).mpr heven) (wordFault_first hfirst))
  · exact step_of_fetchWord_error hrun
      (fetchWord_of_wordFault ((isOdd_eq_false _).mpr heven) (wordFault_second hfirst hsecond))

end Sys2Proof.Machine
end

section
/-! PROOFS. The fields and the four formats of an instruction word as numbers (30_encoding.md R51, R65). -/

namespace Sys2Proof

theorem opField_toNat (w : Word) : (opField w).toNat = w.toNat % 16 := by
  rw [opField, BitVec.extractLsb'_toNat, Nat.shiftRight_zero]

theorem subField_toNat (w : Word) : (subField w).toNat = w.toNat / 16 % 16 := by
  rw [subField, BitVec.extractLsb'_toNat, Nat.shiftRight_eq_div_pow]

theorem ccField_toNat (w : Word) : (ccField w).toNat = w.toNat / 4096 := by
  have hlt : w.toNat / 4096 < 16 := by omega
  rw [ccField, BitVec.extractLsb'_toNat, Nat.shiftRight_eq_div_pow]
  exact Nat.mod_eq_of_lt hlt

theorem immField_toNat (w : Word) : (immField w).toNat = w.toNat / 16 % 256 := by
  rw [immField, BitVec.extractLsb'_toNat, Nat.shiftRight_eq_div_pow]

theorem dField_val (w : Word) : (dField w).val = w.toNat / 4096 := ccField_toNat w

theorem bField_val (w : Word) : (bField w).val = w.toNat / 16 % 16 := subField_toNat w

theorem aField_val (w : Word) : (aField w).val = w.toNat / 256 % 16 := by
  rw [aField, BitVec.val_toFin, BitVec.extractLsb'_toNat, Nat.shiftRight_eq_div_pow]

/-- The number of a word made of a 4-bit, an 8-bit and a 4-bit field. -/
theorem word484_toNat (x : BitVec 4) (y : BitVec 8) (z : BitVec 4) :
    (x ++ y ++ z : Word).toNat = x.toNat <<< 12 ||| y.toNat <<< 4 ||| z.toNat := by
  have happend : (x ++ y ++ z : Word).toNat = (x.toNat <<< 8 ||| y.toNat) <<< 4 ||| z.toNat := by
    rw [← BitVec.toNat_append]
    exact BitVec.toNat_append _ _
  rw [happend, Nat.shiftLeft_or_distrib, ← Nat.shiftLeft_add]

/-- The number of a word made of four 4-bit fields. -/
theorem word4444_toNat (x y z t : BitVec 4) :
    (x ++ y ++ z ++ t : Word).toNat = x.toNat <<< 12 ||| y.toNat <<< 8 ||| z.toNat <<< 4 ||| t.toNat := by
  have happend : (x ++ y ++ z ++ t : Word).toNat = ((x.toNat <<< 4 ||| y.toNat) <<< 4 ||| z.toNat) <<< 4 ||| t.toNat := by
    rw [← BitVec.toNat_append, ← BitVec.toNat_append]
    exact BitVec.toNat_append _ _
  simp only [happend, Nat.shiftLeft_or_distrib, ← Nat.shiftLeft_add]

theorem byte_and_mask (v : Byte) : v.toNat &&& 0xFF = v.toNat :=
  (Nat.and_two_pow_sub_one_eq_mod v.toNat 8).trans (Nat.mod_eq_of_lt v.isLt)

/-- Settles O3: each format is the join of its fields, whose number the shifts and ors give; the examples evaluate. -/
theorem encodingFunctions : Obligations.EncodingFunctions := by
  simp only [Obligations.EncodingFunctions, byte_and_mask]
  refine ⟨fun op d imm8 => ?_, fun op d a b => ?_, fun cc off8 => ?_, fun sub d a => ?_, fun cfg => ?_⟩
  · exact word484_toNat _ _ _
  · exact word4444_toNat _ _ _ _
  · exact word484_toNat _ _ _
  · exact word4444_toNat _ _ _ _
  · exact ⟨rfl, rfl, rfl, rfl, rfl⟩

theorem encodeI8_of_op {w : Word} {n : Nat} (hn : n < 16) (h : (opField w).toNat = n) :
    encodeI8 (BitVec.ofNat 4 n) (dField w) (immField w) = w := by
  rw [← nibble_eq hn h]
  exact word484_fields w

theorem encodeR3_of_op {w : Word} {n : Nat} (hn : n < 16) (h : (opField w).toNat = n) :
    encodeR3 (BitVec.ofNat 4 n) (dField w) (aField w) (bField w) = w := by
  rw [← nibble_eq hn h]
  exact word4444_fields w

theorem encodeB_of_op {w : Word} (h : opField w = 0xE) : encodeB (ccField w) (immField w) = w := by
  rw [encodeB, ← show opField w = 0xE#4 from h]
  exact word484_fields w

theorem encodeR2_subField {w : Word} (h : opField w = 0xF) : encodeR2 (subField w) (dField w) (aField w) = w := by
  rw [encodeR2, ← show opField w = 0xF#4 from h]
  exact word4444_fields w

theorem encodeR2_of_sub {w : Word} {n : Nat} (hn : n < 16) (hop : opField w = 0xF) (hsub : (subField w).toNat = n) :
    encodeR2 (BitVec.ofNat 4 n) (dField w) (aField w) = w := by
  rw [← nibble_eq hn hsub]
  exact encodeR2_subField hop

end Sys2Proof
end

section
/-! PROOFS. The decoder against the encoder and against the maps by op and by sub (30_encoding.md R52 to R61; `in` by
46_io.md R121). -/

namespace Sys2Proof

theorem decode_of_op_E {cfg : Config} {w : Word} (h : opField w = 0xE) : decode cfg w = decodeBranch w := by
  simp [decode, h]

theorem decode_of_op_F {cfg : Config} {w : Word} (h : opField w = 0xF) : decode cfg w = decodeGroupF cfg w := by
  simp [decode, h]

/-- The sub-opcodes that the source does not show are `in` or nothing (R60, R121). -/
theorem decodeGroupF_of_six_le {cfg : Config} {w : Word} (h : 6 ≤ (subField w).toNat) :
    decodeGroupF cfg w =
      if cfg.inSubop = some (subField w) then .ok (.inPort (aField w) (dField w)) else .error (.notShown w) := by
  unfold decodeGroupF
  split
  case h_7 => rfl
  all_goals omega

theorem decode_inPort_of_inSubop {cfg : Config} {w : Word} (hop : opField w = 0xF) (hsub : 6 ≤ (subField w).toNat)
    (hin : cfg.inSubop = some (subField w)) : decode cfg w = .ok (.inPort (aField w) (dField w)) := by
  rw [decode_of_op_F hop, decodeGroupF_of_six_le hsub, if_pos hin]

theorem decode_of_notShown {cfg : Config} {w : Word} (hop : opField w = 0xF) (hsub : 6 ≤ (subField w).toNat)
    (hin : cfg.inSubop ≠ some (subField w)) : decode cfg w = .error (.notShown w) := by
  rw [decode_of_op_F hop, decodeGroupF_of_six_le hsub, if_neg hin]

theorem decodeBranch_of_le {w : Word} (h : (ccField w).toNat ≤ 9) : decodeBranch w = .ok (.bcc (ccField w) (immField w)) :=
  if_pos h

theorem decodeBranch_of_gt {w : Word} (h : 10 ≤ (ccField w).toNat) : decodeBranch w = .error (.invalidInstruction w) :=
  if_neg (by omega)

theorem inSubop_six_le {cfg : Config} {sub : BitVec 4} (hok : cfg.inSubopOk = true) (h : cfg.inSubop = some sub) :
    6 ≤ sub.toNat := by
  simpa [Config.inSubopOk, h] using hok

/-- Settles O1, instruction by instruction: the fields of the word are those it was made of, so the maps give the
instruction back; a `bCC` needs its condition number below 10, and `in` a sub-opcode that no other row has. -/
theorem decodeOfEncode : Obligations.DecodeOfEncode := by
  intro cfg i w hok hwf henc
  cases i with
  | bcc cc imm8 =>
    obtain rfl := Option.some.inj henc
    have hcc : (ccField (encodeB cc imm8)).toNat ≤ 9 := by simpa [Instr.wf] using hwf
    rw [decode_of_op_E (opField_encodeB cc imm8), decodeBranch_of_le hcc, ccField_encodeB, immField_encodeB]
  | inPort a d =>
    obtain ⟨sub, hin, rfl⟩ := Option.map_eq_some_iff.mp henc
    have hsub : subField (encodeR2 sub d a) = sub := subField_encodeR2 sub d a
    have hdec := decode_inPort_of_inSubop (cfg := cfg) (opField_encodeR2 sub d a)
      (hsub.symm ▸ inSubop_six_le hok hin) (hsub.symm ▸ hin)
    rwa [aField_encodeR2, dField_encodeR2] at hdec
  | mov | neg | not | cmp | call | swap =>
    obtain rfl := Option.some.inj henc
    rw [decode_of_op_F (opField_encodeR2 _ _ _)]
    simp [decodeGroupF]
  | _ =>
    obtain rfl := Option.some.inj henc
    simp [decode]

theorem encode_of_decodeBranch {cfg : Config} {w : Word} {i : Instr} (hop : opField w = 0xE)
    (h : decodeBranch w = .ok i) : encode cfg i = some w ∧ i.wf = true := by
  by_cases hcc : (ccField w).toNat ≤ 9
  · rw [decodeBranch_of_le hcc] at h
    obtain rfl := Except.ok.inj h
    exact ⟨congrArg some (encodeB_of_op hop), decide_eq_true hcc⟩
  · rw [decodeBranch_of_gt (by omega)] at h
    cases h

theorem encode_of_decodeGroupF {cfg : Config} {w : Word} {i : Instr} (hop : opField w = 0xF)
    (h : decodeGroupF cfg w = .ok i) : encode cfg i = some w ∧ i.wf = true := by
  unfold decodeGroupF at h
  split at h
  case h_7 =>
    split at h
    · rename_i hin
      obtain rfl := Except.ok.inj h
      rw [encode, hin]
      exact ⟨congrArg some (encodeR2_subField hop), rfl⟩
    · cases h
  all_goals
    rename_i hsub
    obtain rfl := Except.ok.inj h
    exact ⟨congrArg some (encodeR2_of_sub (by decide) hop hsub), rfl⟩

/-- Settles O2: the op, and in the $F group the sub-opcode, select the format, and a word is the join of the fields of
its format. -/
theorem encodeOfDecode : Obligations.EncodeOfDecode := by
  intro cfg w i h
  unfold decode at h
  split at h
  case h_15 hop => exact encode_of_decodeBranch (nibble_eq (by decide) hop) h
  case h_16 =>
    have hF : (opField w).toNat = 0xF := by
      have hlt := (opField w).isLt
      simp only [imp_false] at *
      omega
    exact encode_of_decodeGroupF (nibble_eq (by decide) hF) h
  case h_1 | h_2 =>
    rename_i hop
    obtain rfl := Except.ok.inj h
    exact ⟨congrArg some (encodeI8_of_op (by decide) hop), rfl⟩
  all_goals
    rename_i hop
    obtain rfl := Except.ok.inj h
    exact ⟨congrArg some (encodeR3_of_op (by decide) hop), rfl⟩

theorem subField_opField_of_low_byte {w : Word} {n : Nat} (h : w.toNat % 256 = n) :
    (subField w).toNat = n / 16 ∧ (opField w).toNat = n % 16 := by
  rw [subField_toNat, opField_toNat]
  omega

/-- Settles O5: the fields are the bits that R51 names, so the two maps are the branches of the decoder. -/
theorem opcodeMaps : Obligations.OpcodeMaps := by
  intro cfg w d a b cc imm8 hd ha hb hcc himm
  obtain rfl : d = dField w := Fin.ext (hd.trans (dField_val w).symm)
  obtain rfl : a = aField w := Fin.ext (ha.trans (aField_val w).symm)
  obtain rfl : b = bField w := Fin.ext (hb.trans (bField_val w).symm)
  obtain rfl : cc = ccField w := BitVec.eq_of_toNat_eq (hcc.trans (ccField_toNat w).symm)
  obtain rfl : imm8 = immField w := BitVec.eq_of_toNat_eq (himm.trans (immField_toNat w).symm)
  and_intros
  iterate 14
    · intro hop
      simp only [decode, opField_toNat, hop]
  · intro hop hcc
    rw [decode_of_op_E (nibble_eq (by decide) ((opField_toNat w).trans hop)), decodeBranch_of_le hcc]
  all_goals
    intro hlow
    obtain ⟨hsub, hop⟩ := subField_opField_of_low_byte hlow
    rw [decode_of_op_F (nibble_eq (by decide) hop)]
    simp only [decodeGroupF, hsub]

/-- Settles O6, by the condition number of a branch word and the unshown sub-opcodes of the $F group. -/
theorem wordsOutsideTheMaps : Obligations.WordsOutsideTheMaps := by
  refine fun cfg w => ⟨fun hop hcc => ?_, fun hop hsub hin => ?_, fun hop hsub hin => ?_⟩
  · rw [decode_of_op_E (nibble_eq (by decide) hop), decodeBranch_of_gt hcc]
  · exact decode_inPort_of_inSubop (nibble_eq (by decide) hop) hsub hin
  · exact decode_of_notShown (nibble_eq (by decide) hop) hsub hin

/-- Settles O4: the decoder evaluates on each word; `$216F` has the sub-opcode 6, which only `IN_SUBOP` can show. -/
theorem sampleWordsDecode : Obligations.SampleWordsDecode := by
  refine fun cfg => ⟨rfl, rfl, rfl, rfl, rfl, rfl, rfl, rfl, fun hin => ?_, fun hin => ?_⟩
  · exact decode_inPort_of_inSubop (w := 0x216F) rfl (by decide) hin
  · exact decode_of_notShown (w := 0x216F) rfl (by decide) (by simp [hin])

end Sys2Proof
end

section
/-! PROOFS. A step that fetches a word (60_exceptions.md R136). -/

namespace Sys2Proof.Machine

open Sys2Proof.Safety Sys2Proof.Claims

theorem isFinal_of_running {s : State} (h : Running s) : isFinal s = false := by
  simp [isFinal, h.2]

theorem fetchWord_of_fetchable {s : State} (h : Fetchable s) : fetchWord s = .ok (readWord s s.pc) :=
  fetchWord_ok.mpr ⟨(isOdd_eq_false _).mpr h.1, h.2, rfl⟩

/-- A running state that fetches a word executes what the word decodes to. -/
theorem step_of_decode_ok {s : State} {i : Instr} (hrun : Running s) (hfetch : Fetchable s)
    (h : decode s.cfg (readWord s s.pc) = .ok i) : step s = exec i s := by
  simp [step, hrun.1, isFinal_of_running hrun, fetchWord_of_fetchable hfetch, h]

/-- A running state that fetches a word which is no instruction answers why. -/
theorem step_of_decode_error {s : State} {e : DecodeError} (hrun : Running s) (hfetch : Fetchable s)
    (h : decode s.cfg (readWord s s.pc) = .error e) : step s = decodeFailure s (readWord s s.pc) e := by
  simp [step, hrun.1, isFinal_of_running hrun, fetchWord_of_fetchable hfetch, h]

/-- Two bytes decode as their word does. -/
theorem decode_of_decodeBytes {cfg : Config} {first second : Byte} {i : Instr}
    (h : decodeBytes cfg [first, second] = .ok (i, [])) : decode cfg (wordOfBytes cfg.endian first second) = .ok i := by
  rw [decodeBytes] at h
  split at h
  · rename_i hdec
    cases h
    exact hdec
  · cases h

/-- Settles O8: the bytes at pc are those of the word fetched. -/
theorem stepRunsDecoded : Obligations.StepRunsDecoded := fun _ _ hrun hfetch hbytes =>
  step_of_decode_ok hrun hfetch (decode_of_decodeBytes hbytes)

/-- Settles O11, by what a word of the $F group with an unshown sub-opcode decodes to. -/
theorem notShownRefused : Obligations.NotShownRefused := by
  rintro s w hrun hfetch rfl hop hsub
  constructor
  · intro hin
    exact step_of_decode_error hrun hfetch (decode_of_notShown hop hsub hin)
  · intro hin
    exact step_of_decode_ok hrun hfetch (decode_inPort_of_inSubop hop hsub hin)

end Sys2Proof.Machine
end

section
/-! PROOFS. The assembler's offset of a branch (30_encoding.md R63) and its target (44_branch.md R105). -/

namespace Sys2Proof

open Sys2Proof.Machine

theorem branchImm8_eq_some {cfg : Config} {addr label : Word} {imm8 : Byte} (h : branchImm8 cfg addr label = some imm8) :
    label.toNat % 2 = 0 ∧ imm8.toInt = ((label.toNat : Int) - addr.toNat - cfg.branchBias.toNat) / 2 := by
  obtain ⟨⟨heven, hlow, hhigh⟩, hsome⟩ := Option.ite_none_right_eq_some.mp h
  obtain rfl := Option.some.inj hsome
  refine ⟨(isOdd_eq_false label).mp heven, ?_⟩
  rw [BitVec.toInt_ofInt]
  exact Int.bmod_eq_of_le (by omega) (by omega)

/-- Settles O39: label, address and bias are even, so the offset is exactly half the distance, and the target adds the
distance back. -/
theorem assembledBranchReachesLabel : Obligations.AssembledBranchReachesLabel := by
  intro cfg addr label imm8 haddr hbias himm
  obtain ⟨hlabel, hoff⟩ := branchImm8_eq_some himm
  have htarget : (addr.toNat : Int) + cfg.branchBias.toNat + 2 * imm8.toInt = label.toNat := by omega
  rw [branchTarget, htarget, BitVec.ofInt_natCast, BitVec.ofNat_toNat, BitVec.setWidth_eq]

end Sys2Proof
end

section
/-! PROOFS. `ldim` and `ldimh` (40_load_immediate.md): a result write that keeps the flags, and the bytes of the value
written. -/

namespace Sys2Proof.Machine

open Sys2Proof.Safety Sys2Proof.Claims

theorem signExtend8_toInt (v : Byte) : (signExtend8 v).toInt = v.toInt :=
  BitVec.toInt_signExtend_of_le (by decide)

@[simp] theorem lowByte_signExtend8 (v : Byte) : lowByte (signExtend8 v) = v := by
  apply BitVec.eq_of_getLsbD_eq
  intro i hi
  have hi16 : i < 16 := by omega
  simp [lowByte, signExtend8, BitVec.getElem_signExtend, hi, hi16]

/-- The words that are the sign extension of their low byte (R72). -/
theorem signExtend8_lowByte {k : Word} (h : k.toNat ≤ 0x7F ∨ 0xFF80 ≤ k.toNat) : signExtend8 (lowByte k) = k := by
  apply BitVec.eq_of_toInt_eq
  have hk := k.isLt
  rw [signExtend8_toInt, BitVec.toInt_eq_toNat_cond, BitVec.toInt_eq_toNat_cond, lowByte_toNat]
  split <;> split <;> omega

theorem writeResult_onlyRegsAndFlags (s : State) (d : RegNum) (v : Word) (f : Flags) :
    OnlyRegsAndFlags s (writeResult s d v f) :=
  ⟨fun _ => by rw [writeResult_mem], ⟨writeResult_portHistory .., writeResult_mark .., writeResult_cfg ..⟩,
    writeResult_draws ..⟩

/-- R70 at a register that is not PC. -/
theorem exec_ldim {d : RegNum} {s : State} (imm8 : Byte) (hok : OperandsOk s.cfg [d]) (hpc : d ≠ s.cfg.pcRegnum) :
    ∃ t, exec (.ldim imm8 d) s = .next t ∧ WroteDest s t d (signExtend8 imm8) ∧ t.flags = s.flags ∧
      OnlyRegsAndFlags s t :=
  ⟨_, exec_next_iff.mpr ⟨hok, rfl⟩, writeResult_wroteDest _ _ hpc, writeResult_flags .., writeResult_onlyRegsAndFlags ..⟩

/-- R71 at a register that is not PC. -/
theorem exec_ldimh {d : RegNum} {s : State} (imm8 : Byte) (hok : OperandsOk s.cfg [d]) (hpc : d ≠ s.cfg.pcRegnum) :
    ∃ t, exec (.ldimh imm8 d) s = .next t ∧ WroteDest s t d (joinBytes imm8 (lowByte (readReg s d))) ∧
      t.flags = s.flags ∧ OnlyRegsAndFlags s t :=
  ⟨_, exec_next_iff.mpr ⟨hok, rfl⟩, writeResult_wroteDest _ _ hpc, writeResult_flags .., writeResult_onlyRegsAndFlags ..⟩

/-- Settles O17: the fields of the word are those it was made of, and the value written is the sign extension. -/
theorem ldimResult : Obligations.LdimResult := by
  refine fun imm8 d s => ⟨by simp [decode], fun hok hpc => ?_⟩
  obtain ⟨t, ht, hwrote, hframe⟩ := exec_ldim imm8 hok hpc
  exact ⟨t, _, ht, hwrote, signExtend8_toInt imm8, hframe⟩

/-- Settles O18: the value written is the join of the immediate and the old low byte. -/
theorem ldimhResult : Obligations.LdimhResult := by
  refine fun imm8 d s => ⟨by simp [decode], fun hok hpc => ?_⟩
  obtain ⟨t, ht, hwrote, hframe⟩ := exec_ldimh imm8 hok hpc
  exact ⟨t, _, ht, hwrote, by rw [joinBytes_toNat, lowByte_toNat], hframe⟩

/-- Settles O19: `ldimh` keeps the low byte that `ldim` wrote, and `ldim` overwrites whatever `ldimh` wrote; neither
changes the configuration, so the register stays usable for the second of the two. -/
theorem constantInTwoInstructions : Obligations.ConstantInTwoInstructions := by
  intro k d s hreserved hpc
  have hok : OperandsOk s.cfg [d] := by simp [OperandsOk, hreserved, hpc]
  obtain ⟨t, ht, ⟨htd, -⟩, -, -, ⟨-, -, htcfg⟩, -⟩ := exec_ldim (lowByte k) hok hpc
  obtain ⟨u, hu, ⟨hud, -⟩, -⟩ := exec_ldimh (s := t) (highByte k) (by rwa [htcfg]) (by rwa [htcfg])
  obtain ⟨p, hp, -, -, -, ⟨-, -, hpcfg⟩, -⟩ := exec_ldimh (highByte k) hok hpc
  obtain ⟨q, hq, ⟨hqd, -⟩, -⟩ := exec_ldim (s := p) (lowByte k) (by rwa [hpcfg]) (by rwa [hpcfg])
  refine ⟨t, u, ht, hu, ?_, fun hk => htd.trans (signExtend8_lowByte hk), p, q, hp, hq, ?_⟩
  · rw [hud, readReg_general (by rwa [htcfg]), htd, lowByte_signExtend8, joinBytes_high_low]
  · rw [hqd, signExtend8_toInt]

end Sys2Proof.Machine
end

section
/-! PROOFS. Faults of a data access, in the order of 60_exceptions.md R136: alignment, then the prefetch window, then
admission (20_memory.md R35, R38, R43). -/

namespace Sys2Proof.Machine

open Sys2Proof.Safety

/-- A memory instruction whose fields may be used answers the fault of its access. -/
theorem withOperands_withAccess_fault {i : Instr} {fields : List RegNum} {s : State} {k : Result} {o : Option Fault}
    {f : Fault} (hok : OperandsOk s.cfg fields) (h : o = some f) :
    withOperands i fields s (withAccess o k) = .fault f := by
  rw [withOperands_ok hok, h, withAccess_some]

theorem alignmentFault_of_odd {ea : Word} (h : ea.toNat % 2 = 1) : alignmentFault ea = some (.misalignedData ea) :=
  if_pos ((isOdd_iff ea).mpr h)

theorem alignmentFault_of_even {ea : Word} (h : ea.toNat % 2 = 0) : alignmentFault ea = none :=
  alignmentFault_none.mpr ((isOdd_eq_false ea).mpr h)

/-- The address that the fault names is that of a byte which is not admitted (log 11). -/
theorem wordFault_of_not_wordAdmitted {cfg : Config} {ea : Word} {kind : AccessKind} (h : ¬ WordAdmitted cfg ea kind) :
    ∃ addr, wordFault cfg ea kind = some (.accessNotAdmitted addr kind) ∧ admitted cfg addr kind = false ∧
      (addr = ea ∨ addr = ea + 1) := by
  cases hfirst : admitted cfg ea kind with
  | false => exact ⟨ea, wordFault_first hfirst, hfirst, .inl rfl⟩
  | true =>
    have hsecond : admitted cfg (ea + 1) kind = false := Bool.eq_false_iff.mpr fun hs => h ⟨hfirst, hs⟩
    exact ⟨ea + 1, wordFault_second hfirst hsecond, hsecond, .inr rfl⟩

/-- The window test of a store looks at each of its bytes (R43). -/
theorem touchesWindow_iff {s : State} {ea : Word} {n : Nat} :
    ((List.range n).any fun k => inPrefetchWindow s.cfg s.pc (ea + BitVec.ofNat 16 k)) = true ↔
      ∃ k < n, InWindow s.cfg s.pc (ea + BitVec.ofNat 16 k) := by
  simp only [List.any_eq_true, List.mem_range, windowIsTheRange _ _ _]

theorem windowFault_eq_some {s : State} {ea : Word} {n : Nat}
    (h : ∃ k < n, InWindow s.cfg s.pc (ea + BitVec.ofNat 16 k)) : windowFault s ea n = some (.prefetchWindowStore ea) :=
  if_pos (touchesWindow_iff.mpr h)

theorem windowFault_eq_none {s : State} {ea : Word} {n : Nat}
    (h : ¬ ∃ k < n, InWindow s.cfg s.pc (ea + BitVec.ofNat 16 k)) : windowFault s ea n = none :=
  if_neg (mt touchesWindow_iff.mp h)

theorem exists_byte_lt_one {P : Word → Prop} {ea : Word} : (∃ k < 1, P (ea + BitVec.ofNat 16 k)) ↔ P ea := by
  simp

theorem exists_byte_lt_two {P : Word → Prop} {ea : Word} :
    (∃ k < 2, P (ea + BitVec.ofNat 16 k)) ↔ P ea ∨ P (ea + 1) := by
  rw [Nat.exists_lt_succ_right, exists_byte_lt_one]
  rfl

theorem loadWordFault_of_odd {s : State} {ea : Word} (hodd : ea.toNat % 2 = 1) :
    loadWordFault s ea = some (.misalignedData ea) := by
  rw [loadWordFault, alignmentFault_of_odd hodd, Option.some_or]

theorem loadWordFault_of_even {s : State} {ea : Word} (heven : ea.toNat % 2 = 0) :
    loadWordFault s ea = wordFault s.cfg ea .read := by
  rw [loadWordFault, alignmentFault_of_even heven, Option.none_or]

theorem storeByteFault_of_window {s : State} {ea : Word} (h : InWindow s.cfg s.pc ea) :
    storeByteFault s ea = some (.prefetchWindowStore ea) := by
  rw [storeByteFault, windowFault_eq_some (exists_byte_lt_one.mpr h), Option.some_or]

theorem storeByteFault_of_not_window {s : State} {ea : Word} (h : ¬ InWindow s.cfg s.pc ea) :
    storeByteFault s ea = byteFault s.cfg ea .write := by
  rw [storeByteFault, windowFault_eq_none (mt exists_byte_lt_one.mp h), Option.none_or]

theorem storeWordFault_of_odd {s : State} {ea : Word} (hodd : ea.toNat % 2 = 1) :
    storeWordFault s ea = some (.misalignedData ea) := by
  rw [storeWordFault, alignmentFault_of_odd hodd, Option.some_or, Option.some_or]

theorem storeWordFault_of_window {s : State} {ea : Word} (heven : ea.toNat % 2 = 0)
    (h : InWindow s.cfg s.pc ea ∨ InWindow s.cfg s.pc (ea + 1)) :
    storeWordFault s ea = some (.prefetchWindowStore ea) := by
  rw [storeWordFault, alignmentFault_of_even heven, Option.none_or, windowFault_eq_some (exists_byte_lt_two.mpr h),
    Option.some_or]

theorem storeWordFault_of_not_window {s : State} {ea : Word} (heven : ea.toNat % 2 = 0)
    (h : ¬ (InWindow s.cfg s.pc ea ∨ InWindow s.cfg s.pc (ea + 1))) :
    storeWordFault s ea = wordFault s.cfg ea .write := by
  rw [storeWordFault, alignmentFault_of_even heven, Option.none_or, windowFault_eq_none (mt exists_byte_lt_two.mp h),
    Option.none_or]

end Sys2Proof.Machine
end

section
/-! PROOFS. `ld8` and `ld16` (41_load_store.md R75, R76): the byte loaded with its high byte, and the word loaded. -/

namespace Sys2Proof.Machine

open Sys2Proof.Safety Sys2Proof.Claims

theorem highByte_signExtend8 (v : Byte) : highByte (signExtend8 v) = if v.getLsbD 7 then 0xFF else 0 := by
  have hbit {i : Nat} (hi : i < 8) : (highByte (signExtend8 v)).getLsbD i = v.getLsbD 7 := by
    have hlt : 8 + i < 16 := by omega
    rw [highByte, BitVec.getLsbD_extractLsb', signExtend8, BitVec.getLsbD_signExtend, BitVec.msb_eq_getLsbD_last]
    simp [hi, hlt]
  apply BitVec.eq_of_getLsbD_eq
  intro i hi
  rw [hbit hi]
  cases v.getLsbD 7 with
  | false => simp
  | true => interval_cases i <;> rfl

/-- Under every `LD8_EXT` the low byte is the byte loaded. -/
theorem lowByte_extendLoaded (s : State) (old : Word) (v : Byte) : lowByte (extendLoaded s old v).1 = v := by
  unfold extendLoaded
  split
  case h_2 => exact lowByte_signExtend8 v
  all_goals exact lowByte_joinBytes _ v

theorem extendLoaded_eq_append (s : State) (old : Word) (v : Byte) :
    (extendLoaded s old v).1 = highByte (extendLoaded s old v).1 ++ v := by
  have h := joinBytes_high_low (extendLoaded s old v).1
  rw [lowByte_extendLoaded] at h
  exact h.symm

/-- The two addresses of a word at an even address do not wrap. -/
theorem succ_toNat_of_even {ea : Word} (h : ea.toNat % 2 = 0) : (ea + 1).toNat = ea.toNat + 1 := by
  bv_omega

/-- Settles O22: the access is the byte's admission, and the high byte is what `extendLoaded` puts there. -/
theorem ld8Result : Obligations.Ld8Result := by
  refine fun a b d s => ⟨by simp [decode], fun hok => ⟨fun hdenied => ?_, fun hadmitted hpc => ?_⟩⟩
  · exact withOperands_withAccess_fault hok (byteFault_of_not_admitted hdenied)
  · refine ⟨_, highByte (extendLoaded s (readReg s d) (readByte s (effectiveAddress s a b))).1,
      exec_next_iff.mpr ⟨⟨hok, byteFault_none.mpr hadmitted⟩, rfl⟩, ?_, ?_⟩
    · have hvalue := extendLoaded_eq_append s (readReg s d) (readByte s (effectiveAddress s a b))
      exact wroteDest_congr (hvalue ▸ writeResult_wroteDest _ s.flags hpc) rfl
    · refine ⟨fun h => ?_, fun h => ?_, fun h => ?_, fun h => ?_, by simp, fun _ => by simp, by simp [SameRest]⟩
      · simp [extendLoaded, h]
      · simp [extendLoaded, h, highByte_signExtend8, readByte]
      · simp [extendLoaded, h]
      · simp [extendLoaded, h]

/-- Settles O23: alignment before admission, and the word is the join of its two bytes in the order of `ENDIAN`. -/
theorem ld16Result : Obligations.Ld16Result := by
  refine fun a b d s => ⟨by simp [decode], fun hok => ⟨fun hodd => ?_, fun heven hdenied => ?_,
    fun heven hadmitted hpc => ?_⟩⟩
  · exact withOperands_withAccess_fault hok (loadWordFault_of_odd hodd)
  · obtain ⟨addr, hfault, haddr⟩ := wordFault_of_not_wordAdmitted hdenied
    exact ⟨addr, withOperands_withAccess_fault hok ((loadWordFault_of_even heven).trans hfault), haddr⟩
  · have haccess := (loadWordFault_of_even (s := s) heven).trans (wordFault_none.mpr hadmitted)
    refine ⟨_, _, exec_next_iff.mpr ⟨⟨hok, haccess⟩, rfl⟩, writeResult_wroteDest _ _ hpc, fun hbig => ?_,
      fun hlittle => ?_, writeResult_flags .., writeResult_onlyRegsAndFlags ..⟩
    · rw [readWord, hbig, readByte, readByte, succ_toNat_of_even heven]
      rfl
    · rw [readWord, hlittle, readByte, readByte, succ_toNat_of_even heven]
      rfl

end Sys2Proof.Machine
end

section
/-! PROOFS. `str8` and `str16` (41_load_store.md R77, R78), and a word stored and loaded back (20_memory.md R40). -/

namespace Sys2Proof.Machine

open Sys2Proof.Safety Sys2Proof.Claims

/-- Settles O24: the window before admission; the write replaces one byte of memory. -/
theorem str8Result : Obligations.Str8Result := by
  refine fun a b d s => ⟨by simp [decode], fun hok => ⟨fun hwindow => ?_, fun hwindow hdenied => ?_,
    fun hwindow hadmitted => ?_⟩⟩
  · exact withOperands_withAccess_fault hok (storeByteFault_of_window hwindow)
  · exact withOperands_withAccess_fault hok
      ((storeByteFault_of_not_window hwindow).trans (byteFault_of_not_admitted hdenied))
  · have haccess := (storeByteFault_of_not_window hwindow).trans (byteFault_none.mpr hadmitted)
    refine ⟨_, exec_next_iff.mpr ⟨⟨hok, haccess⟩, rfl⟩, ⟨rfl, fun _ => rfl⟩, rfl, ⟨rfl, rfl, rfl⟩, rfl, ?_,
      fun addr => effect_str8_read⟩
    rw [effect, advance_mem, writeByte_mem, Memory.read_write_self, lowByte_toNat]

/-- The two bytes that `str16` leaves at its address. -/
theorem effect_str16_bytes (s : State) (a b d : RegNum) :
    Memory.read (effect s (.str16 a b d)).mem (effectiveAddress s a b).toNat =
      firstByte s.cfg.endian (readReg s d) ∧
    Memory.read (effect s (.str16 a b d)).mem (effectiveAddress s a b + 1).toNat =
      secondByte s.cfg.endian (readReg s d) :=
  ⟨readByte_writeWord_first s _ _, readByte_writeWord_second s _ _⟩

/-- Settles O25: alignment, window, admission; the write replaces the two bytes of the word. -/
theorem str16Result : Obligations.Str16Result := by
  refine fun a b d s => ⟨by simp [decode], fun hok => ⟨fun hodd => ?_, fun heven hwindow => ?_,
    fun heven hwindow => ⟨fun hdenied => ?_, fun hadmitted => ?_⟩⟩⟩
  · exact withOperands_withAccess_fault hok (storeWordFault_of_odd hodd)
  · exact withOperands_withAccess_fault hok (storeWordFault_of_window heven hwindow)
  · obtain ⟨addr, hfault, haddr⟩ := wordFault_of_not_wordAdmitted hdenied
    exact ⟨addr, withOperands_withAccess_fault hok ((storeWordFault_of_not_window heven hwindow).trans hfault), haddr⟩
  · have haccess := (storeWordFault_of_not_window heven hwindow).trans (wordFault_none.mpr hadmitted)
    obtain ⟨hfirst, hsecond⟩ := effect_str16_bytes s a b d
    have hsucc := succ_toNat_of_even heven
    rw [hsucc] at hsecond
    refine ⟨_, exec_next_iff.mpr ⟨⟨hok, haccess⟩, rfl⟩, ⟨rfl, fun _ => rfl⟩, rfl, ⟨rfl, rfl, rfl⟩, rfl, fun hbig => ?_,
      fun hlittle => ?_, fun addr hne hne_succ => effect_str16_read hne (hsucc ▸ hne_succ)⟩
    · rw [hfirst, hsecond, hbig]
      exact ⟨rfl, rfl⟩
    · rw [hfirst, hsecond, hlittle]
      exact ⟨rfl, rfl⟩

/-- The address of general registers does not move with pc. -/
theorem effectiveAddress_general {s t : State} {a b : RegNum} (ha : a ≠ s.cfg.pcRegnum) (hb : b ≠ s.cfg.pcRegnum)
    (hcfg : t.cfg = s.cfg) (hregs : t.regs = s.regs) : effectiveAddress t a b = effectiveAddress s a b := by
  rw [effectiveAddress, effectiveAddress, readReg_general ha, readReg_general hb,
    readReg_general (hcfg.symm ▸ ha), readReg_general (hcfg.symm ▸ hb), hregs]

/-- What `str16` stored is what a load reads at the same address. -/
theorem readWord_effect_str16 (s : State) (a b d : RegNum) :
    readWord (effect s (.str16 a b d)) (effectiveAddress s a b) = readReg s d :=
  readWord_writeWord s _ _

/-- Settles O26: `str16` leaves the registers of the address as they were, so `ld16` reads the word just written. -/
theorem storeThenLoadWord : Obligations.StoreThenLoadWord := by
  intro a b d q s t u ha hb hq hstore hload
  obtain ⟨-, ht⟩ := exec_next_iff.mp hstore
  obtain ⟨-, hu⟩ := exec_next_iff.mp hload
  have hcfg : t.cfg = s.cfg := by rw [ht, effect_cfg]
  have hregs : t.regs = s.regs := by rw [ht]; rfl
  calc u.regs[q] = readWord t (effectiveAddress t a b) := by
        rw [hu]
        exact (writeResult_wroteDest _ _ (hcfg.symm ▸ hq)).1
    _ = readWord t (effectiveAddress s a b) := by rw [effectiveAddress_general ha hb hcfg hregs]
    _ = readReg s d := by rw [ht, readWord_effect_str16]

end Sys2Proof.Machine
end

section
/-! PROOFS. `add`, `adc`, `and`, `or`, `xor` (42_arithmetic_logic.md): what the two shared results write, once for all five
instructions, and subtraction by `neg` and `add`. -/

namespace Sys2Proof.Machine

open Sys2Proof.Safety Sys2Proof.Claims

/-- `setNZ` and `flagsOf` read N and Z off the result as R5 and R17 say. -/
theorem nzFollow_of_flags {t : State} {v : Word} (hn : t.flags.n = v.getLsbD 15) (hz : t.flags.z = decide (v = 0)) :
    NZFollow t v :=
  ⟨hn.trans (v.msb_eq_getLsbD_last.symm.trans v.msb_eq_decide), hz.trans (decide_eq_decide.mpr BitVec.toNat_inj.symm)⟩

@[simp] theorem sumResult_toNat (sum : Nat) : (sumResult sum).toNat = sum % 65536 := BitVec.toNat_ofNat sum 16

theorem sumResult_exactSum (x y : Word) : sumResult (exactSum x y false) = x + y := by
  apply BitVec.eq_of_toNat_eq
  rw [sumResult_toNat, BitVec.toNat_add]
  rfl

theorem exactSum_eq (x y : Word) (carryIn : Bool) :
    exactSum x y carryIn = x.toNat + y.toNat + (if carryIn then 1 else 0) := by
  cases carryIn <;> rfl

/-- Two words and a carry have a sum of 17 bits. -/
theorem exactSum_lt (x y : Word) (carryIn : Bool) : exactSum x y carryIn < 131072 := by
  have hcarry := carryIn.toNat_lt
  rw [exactSum]
  omega

/-- Bit 16 of a sum of 17 bits says whether it passes 2^16 (R85, R86). -/
theorem sumCarry_eq {sum : Nat} (h : sum < 131072) : sumCarry sum = decide (65536 ≤ sum) := by
  rw [sumCarry, Nat.testBit_eq_decide_div_mod_eq, decide_eq_decide]
  omega

/-- What `add` and `adc` write, and what they leave alone. -/
theorem addInto_result {a b d : RegNum} {s : State} {carryIn : Bool} {sum : Nat}
    (hsum : exactSum (readReg s a) (readReg s b) carryIn = sum) (hpc : d ≠ s.cfg.pcRegnum) :
    WroteDest s (addInto a b d carryIn s) d (sumResult sum) ∧ (sumResult sum).toNat = sum % 65536 ∧
      (addInto a b d carryIn s).flags.c = decide (65536 ≤ sum) ∧ NZFollow (addInto a b d carryIn s) (sumResult sum) ∧
      OnlyRegsAndFlags s (addInto a b d carryIn s) := by
  subst hsum
  refine ⟨writeResult_wroteDest _ _ hpc, sumResult_toNat _, ?_, nzFollow_of_flags ?_ ?_,
    writeResult_onlyRegsAndFlags ..⟩
  · rw [← sumCarry_eq (exactSum_lt ..), addInto, writeResult_flags, flagsOf]
  · rw [addInto, writeResult_flags, flagsOf]
  · rw [addInto, writeResult_flags, flagsOf]

/-- What a bitwise instruction writes, and what it leaves alone, C among it. -/
theorem logicInto_result {d : RegNum} {s : State} (r : Word) (hpc : d ≠ s.cfg.pcRegnum) :
    WroteDest s (logicInto d r s) d r ∧ (logicInto d r s).flags.c = s.flags.c ∧ NZFollow (logicInto d r s) r ∧
      OnlyRegsAndFlags s (logicInto d r s) := by
  refine ⟨writeResult_wroteDest _ _ hpc, logicInto_carry .., nzFollow_of_flags ?_ ?_,
    writeResult_onlyRegsAndFlags ..⟩
  · rw [logicInto, writeResult_flags, setNZ]
  · rw [logicInto, writeResult_flags, setNZ]

/-- Settles O27: the sum without a carry in. -/
theorem addResult : Obligations.AddResult := fun a b d s =>
  ⟨by simp [decode], fun hok hpc => ⟨_, _, exec_next_iff.mpr ⟨hok, rfl⟩, addInto_result rfl hpc⟩⟩

/-- Settles O28: the sum with the carry flag read before it is written. -/
theorem adcResult : Obligations.AdcResult := fun a b d s =>
  ⟨by simp [decode], fun hok hpc => ⟨_, _, exec_next_iff.mpr ⟨hok, rfl⟩, addInto_result (exactSum_eq ..) hpc⟩⟩

/-- Settles O29: the and of two words is taken bit by bit. -/
theorem andResult : Obligations.AndResult := by
  refine fun a b d s => ⟨by simp [decode], fun hok hpc => ?_⟩
  obtain ⟨hwrote, hrest⟩ := logicInto_result (readReg s a &&& readReg s b) hpc
  exact ⟨_, _, exec_next_iff.mpr ⟨hok, rfl⟩, hwrote, fun j _ => BitVec.getLsbD_and, hrest⟩

/-- Settles O30: the or of two words is taken bit by bit. -/
theorem orResult : Obligations.OrResult := by
  refine fun a b d s => ⟨by simp [decode], fun hok hpc => ?_⟩
  obtain ⟨hwrote, hrest⟩ := logicInto_result (readReg s a ||| readReg s b) hpc
  exact ⟨_, _, exec_next_iff.mpr ⟨hok, rfl⟩, hwrote, fun j _ => BitVec.getLsbD_or, hrest⟩

/-- Settles O31: the exclusive or of two words is taken bit by bit. -/
theorem xorResult : Obligations.XorResult := by
  refine fun a b d s => ⟨by simp [decode], fun hok hpc => ?_⟩
  obtain ⟨hwrote, hrest⟩ := logicInto_result (readReg s a ^^^ readReg s b) hpc
  exact ⟨_, _, exec_next_iff.mpr ⟨hok, rfl⟩, hwrote, fun j _ => BitVec.getLsbD_xor, hrest⟩

/-- The register `neg` writes; its C, which `SUB_CARRY` decides (R116), is not part of it. -/
theorem effect_neg_wroteDest {a d : RegNum} {s : State} (hpc : d ≠ s.cfg.pcRegnum) :
    WroteDest s (effect s (.neg a d)) d (0 - readReg s a) :=
  wroteDest_congr (writeResult_wroteDest _ _ hpc) rfl

/-- Adding the negation of a word that is not 0 adds 2^16 and subtracts the word; the negation of 0 is 0, so nothing
carries (R85's corner case). -/
theorem add_neg_carry_iff (x y : Word) : 65536 ≤ x.toNat + (0 - y).toNat ↔ y ≠ 0 ∧ y.toNat ≤ x.toNat := by
  bv_omega

/-- Settles O32: `neg` leaves rX alone, as rT is another register, and `add` overwrites the C of `neg`, so `SUB_CARRY` does
not show. -/
theorem subtractByNegAdd : Obligations.SubtractByNegAdd := by
  intro x y tmp d s husable htmp
  simp only [List.forall_mem_cons, List.not_mem_nil, false_implies, implies_true, and_true] at husable
  obtain ⟨⟨hxr, hxpc⟩, ⟨hyr, hypc⟩, ⟨htr, htpc⟩, ⟨hdr, hdpc⟩⟩ := husable
  have hneg : OperandsOk s.cfg [y, tmp] := by simp [OperandsOk, *]
  have hadd : OperandsOk s.cfg [x, tmp, d] := by simp [OperandsOk, *]
  obtain ⟨htreg, hother⟩ := effect_neg_wroteDest (a := y) htpc
  have hcfg := effect_cfg s (.neg y tmp)
  generalize ht : effect s (.neg y tmp) = t at htreg hother hcfg
  rw [← hcfg] at hxpc htpc hdpc hadd
  have hx : readReg t x = s.regs[x] := by rw [readReg_general hxpc, hother x htmp.symm]
  have htmp_read : readReg t tmp = 0 - s.regs[y] := by rw [readReg_general htpc, htreg, readReg_general hypc]
  obtain ⟨⟨hdreg, -⟩, -, hcarry, -⟩ := addInto_result (a := x) (b := tmp) (carryIn := false) rfl hdpc
  refine ⟨t, _, exec_next_iff.mpr ⟨hneg, ht.symm⟩, exec_next_iff.mpr ⟨hadd, rfl⟩, ?_, ?_⟩
  · rw [effect, hdreg, hx, htmp_read, sumResult_exactSum]
    bv_omega
  · rw [effect, hcarry, hx, htmp_read, decide_eq_decide]
    exact add_neg_carry_iff _ _

end Sys2Proof.Machine
end

section
/-! PROOFS. `lsl`, `lsr`, `asr` (43_shift.md): what the shared shift writes, once for all three instructions, at the
amounts 1 to 15 (R96 to R98) and at the others (R99). -/

namespace Sys2Proof.Machine

open Sys2Proof.Safety Sys2Proof.Claims

theorem exec_shiftInstr {kind : ShiftKind} {a b d : RegNum} {s : State} (hok : OperandsOk s.cfg [a, b, d]) :
    exec (shiftInstr kind a b d) s = .next (shiftInto kind a b d s) := by
  cases kind with
  | lsl | lsr | asr => exact exec_next_iff.mpr ⟨hok, rfl⟩

/-- What a shift writes at any amount, and what it leaves alone. -/
theorem shiftInto_result {a b d : RegNum} {s : State} {kind : ShiftKind} {out : Shifted}
    (hout : shift s kind (readReg s a) (readReg s b) = out) (hpc : d ≠ s.cfg.pcRegnum) :
    WroteDest s (shiftInto kind a b d s) d out.result ∧ (shiftInto kind a b d s).flags.c = out.carry ∧
      NZFollow (shiftInto kind a b d s) out.result ∧ SameMemory s (shiftInto kind a b d s) ∧
      SameRest s (shiftInto kind a b d s) ∧ (shiftInto kind a b d s).draws = s.draws + out.drawn := by
  have hstate : shiftInto kind a b d s =
      (writeResult s d out.result (flagsOf out.carry out.result)).drew out.drawn := by rw [← hout, shiftInto]
  have hflags : (shiftInto kind a b d s).flags = flagsOf out.carry out.result := by
    rw [hstate, State.drew_flags, writeResult_flags]
  obtain ⟨hmem, hrest, hdraws⟩ := writeResult_onlyRegsAndFlags s d out.result (flagsOf out.carry out.result)
  refine ⟨?_, by rw [hflags, flagsOf], nzFollow_of_flags (by rw [hflags, flagsOf]) (by rw [hflags, flagsOf]), ?_⟩
  · rw [hstate]
    exact wroteDest_congr (writeResult_wroteDest _ _ hpc) rfl
  · rw [hstate, State.drew_draws, hdraws]
    exact ⟨hmem, hrest, rfl⟩

theorem shift_of_1_to_15 {s : State} {kind : ShiftKind} {v n : Word} (hlo : 1 ≤ n.toNat) (hhi : n.toNat ≤ 15) :
    shift s kind v n = { result := shiftResult kind v n.toNat, carry := shiftCarry kind v n.toNat, drawn := 0 } :=
  if_pos ⟨hlo, hhi⟩

theorem shift_of_edge {s : State} {kind : ShiftKind} {v n : Word} (h : n = 0 ∨ 16 ≤ n.toNat) :
    shift s kind v n = shiftEdge s kind v n := by
  refine if_neg fun ⟨hlo, hhi⟩ => ?_
  rcases h with rfl | h
  · exact absurd hlo (by decide)
  · omega

/-- By 1 to 15 a shift draws nothing, so it changes registers and flags only. -/
theorem exec_shiftInstr_of_1_to_15 {a b d : RegNum} {s : State} (kind : ShiftKind) (hok : OperandsOk s.cfg [a, b, d])
    (hpc : d ≠ s.cfg.pcRegnum) (hlo : 1 ≤ (readReg s b).toNat) (hhi : (readReg s b).toNat ≤ 15) :
    ∃ t, exec (shiftInstr kind a b d) s = .next t ∧
      WroteDest s t d (shiftResult kind (readReg s a) (readReg s b).toNat) ∧
      t.flags.c = shiftCarry kind (readReg s a) (readReg s b).toNat ∧
      NZFollow t (shiftResult kind (readReg s a) (readReg s b).toNat) ∧ OnlyRegsAndFlags s t :=
  ⟨_, exec_shiftInstr hok, shiftInto_result (shift_of_1_to_15 hlo hhi) hpc⟩

theorem shiftResult_lsl_toNat (v : Word) (n : Nat) : (shiftResult .lsl v n).toNat = v.toNat * 2 ^ n % 65536 := by
  rw [shiftResult, BitVec.toNat_shiftLeft, Nat.shiftLeft_eq]

theorem shiftResult_lsr_toNat (v : Word) (n : Nat) : (shiftResult .lsr v n).toNat = v.toNat / 2 ^ n := by
  rw [shiftResult, BitVec.toNat_ushiftRight, Nat.shiftRight_eq_div_pow]

theorem shiftResult_asr_getLsbD (v : Word) (n : Nat) {j : Nat} (hj : j < 16) :
    (shiftResult .asr v n).getLsbD j = if j + n < 16 then v.getLsbD (j + n) else v.getLsbD 15 := by
  rw [shiftResult, BitVec.getLsbD_sshiftRight, BitVec.msb_eq_getLsbD_last, Nat.add_comm n j,
    decide_eq_false (Nat.not_le.mpr hj), Bool.not_false, Bool.true_and]

/-- Settles O33: the shift to the left multiplies by a power of two. -/
theorem lslResult : Obligations.LslResult := by
  refine fun a b d s => ⟨by simp [decode], fun hok hpc hlo hhi => ?_⟩
  obtain ⟨t, ht, hwrote, hrest⟩ := exec_shiftInstr_of_1_to_15 .lsl hok hpc hlo hhi
  exact ⟨t, _, ht, hwrote, shiftResult_lsl_toNat _ _, hrest⟩

/-- Settles O34: the shift to the right divides by a power of two. -/
theorem lsrResult : Obligations.LsrResult := by
  refine fun a b d s => ⟨by simp [decode], fun hok hpc hlo hhi => ?_⟩
  obtain ⟨t, ht, hwrote, hrest⟩ := exec_shiftInstr_of_1_to_15 .lsr hok hpc hlo hhi
  exact ⟨t, _, ht, hwrote, shiftResult_lsr_toNat _ _, hrest⟩

/-- Settles O35: the arithmetic shift fills with bit 15. -/
theorem asrResult : Obligations.AsrResult := by
  refine fun a b d s => ⟨by simp [decode], fun hok hpc hlo hhi => ?_⟩
  obtain ⟨t, ht, hwrote, hrest⟩ := exec_shiftInstr_of_1_to_15 .asr hok hpc hlo hhi
  exact ⟨t, _, ht, hwrote, fun _ => shiftResult_asr_getLsbD _ _, hrest⟩

theorem shiftEdge_draw {s : State} (h : s.cfg.shiftEdge = .draw) (kind : ShiftKind) (v n : Word) :
    shiftEdge s kind v n =
      { result := if n = 0 then v else Config.freeWord s.draws, carry := Config.freeBit s.draws, drawn := 1 } := by
  rw [shiftEdge, h]

theorem shiftEdge_supplied {s : State} {f : EdgeFunction} (h : s.cfg.shiftEdge = .supplied f) (kind : ShiftKind)
    (v n : Word) :
    shiftEdge s kind v n =
      { result := (edgeAnswer f kind v n s.flags.c).1, carry := (edgeAnswer f kind v n s.flags.c).2, drawn := 0 } := by
  rw [shiftEdge, h]

/-- Settles O36: at these amounts the shift is `shiftEdge`, whose result and C are those of the setting of `SHIFT_EDGE`. -/
theorem shiftEdgeAmounts : Obligations.ShiftEdgeAmounts := by
  intro kind a b d s hok hpc hamount
  obtain ⟨hwrote, hcarry, hnz, hmem, hrest, hdraws⟩ :=
    shiftInto_result (a := a) (shift_of_edge (kind := kind) hamount) hpc
  refine ⟨_, _, exec_shiftInstr hok, hwrote, hnz, hmem, hrest, fun hdraw => ?_, fun f hsupplied => ?_⟩
  · rw [shiftEdge_draw hdraw] at hcarry hdraws ⊢
    refine ⟨fun hzero => if_pos hzero, fun hlarge => if_neg fun hzero => ?_, hcarry, hdraws⟩
    rw [hzero] at hlarge
    exact absurd hlarge (by decide)
  · rw [hcarry, hdraws, shiftEdge_supplied hsupplied]
    exact ⟨rfl, rfl⟩

end Sys2Proof.Machine
end

section
/-! PROOFS. `bCC` (44_branch.md): the invalid instruction exception where the condition number is above 9 (R107), and below
that the branch taken and not taken, and how far it reaches (R105, R108). -/

namespace Sys2Proof.Machine

open Sys2Proof.Safety Sys2Proof.Claims

/-- A fault marks the state of the run and changes nothing else of it (R6; log 17). -/
theorem advanceRun_of_fault {s : State} {f : Fault} (h : step s = .fault f) : advanceRun s = s.setMark (.faulted f) := by
  simp [advanceRun, h]

/-- Settles O10: the word decodes to the invalid instruction, whose fault only marks the run. -/
theorem invalidBranchRaises : Obligations.InvalidBranchRaises := by
  rintro s w hrun hfetch rfl hop hcc
  have hdecode : decode s.cfg (readWord s s.pc) = .error (.invalidInstruction (readWord s s.pc)) :=
    (decode_of_op_E hop).trans (decodeBranch_of_gt hcc)
  have hstep : step s = .fault (.invalidInstruction (readWord s s.pc) s.pc) := step_of_decode_error hrun hfetch hdecode
  rw [advanceRun_of_fault hstep]
  exact ⟨hstep, rfl, rfl, rfl⟩

theorem exec_bcc_invalid {cc : BitVec 4} (imm8 : Byte) (s : State) (h : 10 ≤ cc.toNat) :
    exec (.bcc cc imm8) s = .fault (.invalidInstruction (encodeB cc imm8) s.pc) := if_pos h

theorem exec_bcc_taken {cc : BitVec 4} (imm8 : Byte) {s : State} (hcc : cc.toNat ≤ 9)
    (hcond : condHolds s.cfg cc s.flags = true) :
    exec (.bcc cc imm8) s = .next (s.setPc (branchTarget s.cfg s.pc imm8)) :=
  exec_next_iff.mpr ⟨hcc, (if_pos hcond).symm⟩

theorem exec_bcc_not_taken {cc : BitVec 4} (imm8 : Byte) {s : State} (hcc : cc.toNat ≤ 9)
    (hcond : condHolds s.cfg cc s.flags = false) : exec (.bcc cc imm8) s = .next (s.setPc (s.pc + 2)) :=
  exec_next_iff.mpr ⟨hcc, (if_neg (by simp [hcond])).symm⟩

theorem decode_encodeB {cfg : Config} {cc : BitVec 4} (imm8 : Byte) (h : cc.toNat ≤ 9) :
    decode cfg (encodeB cc imm8) = .ok (.bcc cc imm8) := by
  have hcc : (ccField (encodeB cc imm8)).toNat ≤ 9 := by rwa [ccField_encodeB]
  rw [decode_of_op_E (opField_encodeB cc imm8), decodeBranch_of_le hcc, ccField_encodeB, immField_encodeB]

theorem branchTarget_toNat (cfg : Config) (pc : Word) (imm8 : Byte) :
    ((branchTarget cfg pc imm8).toNat : Int) = ((pc.toNat : Int) + cfg.branchBias.toNat + 2 * imm8.toInt) % 65536 := by
  rw [branchTarget, BitVec.toNat_ofInt]
  exact Int.toNat_of_nonneg (Int.emod_nonneg _ (by decide))

/-- Settles O37, by the two answers of `exec` to a condition number, and its two next states. -/
theorem bccResult : Obligations.BccResult := by
  refine fun cc imm8 s => ⟨exec_bcc_invalid imm8 s, fun hcc => ⟨decode_encodeB imm8 hcc, ?_⟩⟩
  cases hcond : condHolds s.cfg cc s.flags with
  | true => exact ⟨_, exec_bcc_taken imm8 hcc hcond, fun _ => branchTarget_toNat s.cfg s.pc imm8, nofun, rfl⟩
  | false => exact ⟨_, exec_bcc_not_taken imm8 hcc hcond, nofun, fun _ => BitVec.toNat_add s.pc 2, rfl⟩

/-- A bias of 8 is four instructions, which the offset of the target counts on top of `imm8` (R108). -/
theorem branchTarget_of_bias_8 {cfg : Config} (pc : Word) (imm8 : Byte) (h : cfg.branchBias = 8) :
    branchTarget cfg pc imm8 = pc + BitVec.ofInt 16 (2 * (imm8.toInt + 4)) := by
  have hsum : (pc.toNat : Int) + cfg.branchBias.toNat + 2 * imm8.toInt = pc.toNat + 2 * (imm8.toInt + 4) := by
    rw [h, show (8 : Word).toNat = 8 from rfl]
    omega
  rw [branchTarget, hsum, BitVec.ofInt_add, BitVec.ofInt_natCast, BitVec.ofNat_toNat, BitVec.setWidth_eq]

/-- Settles O38: the branch goes `imm8 + 4` instructions, and a signed byte is from -128 to 127. -/
theorem branchRange : Obligations.BranchRange := by
  refine ⟨rfl, fun cc imm8 s hbias hcc hcond => ?_⟩
  have hexec (v : Byte) : exec (.bcc cc v) s = .next (s.setPc (s.pc + BitVec.ofInt 16 (2 * (v.toInt + 4)))) := by
    rw [exec_bcc_taken v hcc hcond, branchTarget_of_bias_8 s.pc v hbias]
  have hlow : -128 ≤ imm8.toInt := imm8.le_toInt
  have hhigh : imm8.toInt < 128 := imm8.toInt_lt
  refine ⟨hexec 0x7F, ?_, imm8.toInt + 4, by omega, by omega, hexec imm8⟩
  rw [hexec 0x80, BitVec.sub_eq_add_neg]
  rfl

end Sys2Proof.Machine
end

section
/-! PROOFS. `mov`, `not`, `call`, `swap` (45_two_operand.md R110, R112, R114, R115), and the return from a call. -/

namespace Sys2Proof.Machine

open Sys2Proof.Safety Sys2Proof.Claims

/-- Settles O40: `mov` is a result write that keeps the flags. -/
theorem movResult : Obligations.MovResult := fun a d s =>
  ⟨by simp [decode, decodeGroupF], fun hok => ⟨_, exec_next_iff.mpr ⟨hok, rfl⟩, writeResult_wroteReg ..,
    writeResult_flags .., writeResult_onlyRegsAndFlags ..⟩⟩

/-- Settles O42: the complement of a word is taken bit by bit. -/
theorem notResult : Obligations.NotResult := by
  refine fun a d s => ⟨by simp [decode, decodeGroupF], fun hok hpc => ?_⟩
  obtain ⟨hwrote, hrest⟩ := logicInto_result (~~~(readReg s a)) hpc
  exact ⟨_, _, exec_next_iff.mpr ⟨hok, rfl⟩, hwrote, fun j hj => by simp [hj], hrest⟩

theorem effect_call_link (s : State) (a d : RegNum) : (effect s (.call a d)).regs[d] = s.pc + 2 :=
  setReg_self s d _

/-- Settles O44: the link is one register write, and pc is the target read before it. -/
theorem callResult : Obligations.CallResult := by
  refine fun a d s => ⟨by simp [decode, decodeGroupF], fun hok => ?_⟩
  refine ⟨_, exec_next_iff.mpr ⟨hok, rfl⟩, rfl, ?_, fun r hr => setReg_other s _ hr, rfl,
    ⟨fun _ => rfl, ⟨rfl, rfl, rfl⟩, rfl⟩⟩
  rw [effect_call_link, BitVec.toNat_add]
  rfl

theorem effect_mov_pcRegnum (s : State) (a : RegNum) :
    effect s (.mov a s.cfg.pcRegnum) = s.setPc (readReg s a) := by
  rw [effect, writeResult_pcRegnum]
  rfl

/-- Settles O46: the call leaves the link in rD, which is not PC (R114), and `mov` to PC makes the link the pc (R110). -/
theorem callThenMovReturns : Obligations.CallThenMovReturns := by
  intro a d s t hcall hpcReserved
  obtain ⟨⟨⟨-, hreserved⟩, hpc, -⟩, ht⟩ := exec_next_iff.mp hcall
  have hcfg : t.cfg = s.cfg := by rw [ht, effect_cfg]
  have hmov : MovOperandsOk t.cfg d t.cfg.pcRegnum := hcfg ▸ ⟨⟨hreserved, hpcReserved⟩, .inr hpc⟩
  have hlink : readReg t d = s.pc + 2 := by rw [readReg_general (hcfg ▸ hpc), ht, effect_call_link]
  have hflags : t.flags = s.flags := by rw [ht, effect_flags rfl]
  rw [← hcfg]
  exact ⟨_, exec_next_iff.mpr ⟨hmov, (effect_mov_pcRegnum t d).symm⟩, hlink, rfl, hflags⟩

/-- `swap` of two registers that are not PC writes each with the old value of the other (R115). -/
theorem effect_swap_general {s : State} {a d : RegNum} (ha : a ≠ s.cfg.pcRegnum) (hd : d ≠ s.cfg.pcRegnum) :
    effect s (.swap a d) = ((advance s).setReg a s.regs[d]).setReg d s.regs[a] := by
  rw [effect, readReg_general ha, readReg_general hd, writeReg_general (s := advance s) _ ha,
    writeReg_general (s := (advance s).setReg a _) _ hd]

/-- Settles O45: the second write hides the first only where both fields name the same register. -/
theorem swapResult : Obligations.SwapResult := by
  refine fun a d s => ⟨by simp [decode, decodeGroupF], fun hok ha hd => ?_⟩
  refine ⟨_, exec_next_iff.mpr ⟨hok, (effect_swap_general ha hd).symm⟩, fun r hra hrd => ?_, ?_, setReg_self _ _ _, rfl,
    ⟨fun _ => rfl, ⟨rfl, rfl, rfl⟩, rfl⟩⟩
  · exact (setReg_other _ _ hrd).trans (setReg_other _ _ hra)
  · by_cases had : a = d
    · subst had
      exact setReg_self _ _ _
    · exact (setReg_other _ _ had).trans (setReg_self _ _ _)

end Sys2Proof.Machine
end

section
/-! PROOFS. `neg` and `cmp` (45_two_operand.md R111, R113): the difference both compute, and the C flag that `SUB_CARRY`
gives them (R116). -/

namespace Sys2Proof.Machine

open Sys2Proof.Safety Sys2Proof.Claims

theorem difference_toNat (m v : Word) : (difference m v).toNat = (m.toNat + 65536 - v.toNat) % 65536 := by
  rw [difference]
  bv_omega

theorem difference_eq_zero_iff {m v : Word} : difference m v = 0 ↔ m = v := sub_eq_zero

theorem subtractionCarry_addComplement {s : State} (h : s.cfg.subCarry = .addComplement) (m v : Word) :
    subtractionCarry s m v = (decide (v.toNat ≤ m.toNat), 0) := by
  rw [subtractionCarry, h]

theorem subtractionCarry_borrow {s : State} (h : s.cfg.subCarry = .borrow) (m v : Word) :
    subtractionCarry s m v = (decide (m.toNat < v.toNat), 0) := by
  rw [subtractionCarry, h]

theorem subtractionCarry_draw {s : State} (h : s.cfg.subCarry = .draw) (m v : Word) :
    subtractionCarry s m v = (Config.freeBit s.draws, 1) := by
  rw [subtractionCarry, h]

/-- The carry out of `m + ~v + 1` says that `m - v` does not borrow (R116). -/
theorem add_not_add_one_carry_iff (m v : Word) : 65536 ≤ m.toNat + (~~~v).toNat + 1 ↔ v.toNat ≤ m.toNat := by
  bv_omega

theorem effect_neg_flags (s : State) (a d : RegNum) :
    (effect s (.neg a d)).flags = flagsOf (subtractionCarry s 0 (readReg s a)).1 (difference 0 (readReg s a)) := by
  rw [effect, State.drew_flags, writeResult_flags]

theorem effect_neg_draws (s : State) (a d : RegNum) :
    (effect s (.neg a d)).draws = s.draws + (subtractionCarry s 0 (readReg s a)).2 := by
  rw [effect, State.drew_draws, writeResult_draws]

/-- Settles O41: `neg` is the difference `0 - rA`, which borrows unless rA is 0. -/
theorem negResult : Obligations.NegResult := by
  refine fun a d s => ⟨by simp [decode, decodeGroupF], fun hok hpc => ?_⟩
  have hflags := effect_neg_flags s a d
  have hdraws := effect_neg_draws s a d
  refine ⟨_, difference 0 (readReg s a), exec_next_iff.mpr ⟨hok, rfl⟩, effect_neg_wroteDest hpc, ?_,
    nzFollow_of_flags (by rw [hflags, flagsOf]) (by rw [hflags, flagsOf]), fun _ => ?_,
    ⟨effect_portHistory (by simp) s, effect_mark .., effect_cfg ..⟩, fun hcarry => ?_, fun hcarry => ?_, fun hcarry => ?_⟩
  · simpa using difference_toNat 0 (readReg s a)
  · rw [effect_mem (by simp) (by simp)]
  · rw [hflags, hdraws, subtractionCarry_addComplement hcarry]
    exact ⟨decide_eq_decide.mpr (by bv_omega), rfl⟩
  · rw [hflags, hdraws, subtractionCarry_borrow hcarry]
    exact ⟨decide_eq_decide.mpr (by bv_omega), rfl⟩
  · rw [hflags, hdraws, subtractionCarry_draw hcarry]
    exact ⟨rfl, rfl⟩

/-- Settles O43: `cmp` advances pc and sets the flags of the difference. -/
theorem cmpResult : Obligations.CmpResult := by
  refine fun a d s => ⟨by simp [decode, decodeGroupF], fun hok => ?_⟩
  obtain ⟨hn, -⟩ : NZFollow (effect s (.cmp a d)) (difference (readReg s d) (readReg s a)) := nzFollow_of_flags rfl rfl
  refine ⟨_, exec_next_iff.mpr ⟨hok, rfl⟩, ⟨rfl, fun _ => rfl⟩, fun _ => rfl, ⟨rfl, rfl, rfl⟩, ?_, ?_, fun hcarry => ?_,
    fun hcarry => ?_, fun hcarry => ?_⟩
  · rw [hn, difference_toNat]
  · exact decide_eq_decide.mpr difference_eq_zero_iff
  · rw [effect, subtractionCarry_addComplement hcarry]
    exact ⟨rfl, decide_eq_decide.mpr (add_not_add_one_carry_iff _ _).symm, rfl⟩
  · rw [effect, subtractionCarry_borrow hcarry]
    exact ⟨rfl, rfl⟩
  · rw [effect, subtractionCarry_draw hcarry]
    exact ⟨rfl, rfl⟩

end Sys2Proof.Machine
end

section
/-! PROOFS. `in` (46_io.md): the words that `IN_SUBOP` names (R121), and the port's answer with the flags that `IN_FLAGS`
gives (R120, R122). -/

namespace Sys2Proof.Machine

open Sys2Proof.Safety Sys2Proof.Claims

/-- Only a supplied `IN_SUBOP` gives `in` a word (R121). -/
theorem encode_inPort_iff {cfg : Config} {a d : RegNum} {w : Word} :
    encode cfg (.inPort a d) = some w ↔ ∃ sub, cfg.inSubop = some sub ∧ w = encodeR2 sub d a := by
  simp only [encode, Option.map_eq_some_iff, eq_comm (b := w)]

/-- Settles O7: decoder and encoder agree on `in` (O1, O2), and the encoder gives it the words of `IN_SUBOP`. -/
theorem inDecodesOnlyBySubop : Obligations.InDecodesOnlyBySubop := fun cfg w a d hok =>
  calc decode cfg w = .ok (.inPort a d)
    _ ↔ encode cfg (.inPort a d) = some w :=
      ⟨fun hdec => (encodeOfDecode cfg w _ hdec).1, decodeOfEncode cfg _ w hok rfl⟩
    _ ↔ ∃ sub, cfg.inSubop = some sub ∧ w = encodeR2 sub d a := encode_inPort_iff

theorem inFlags_unchanged {s : State} (h : s.cfg.inFlags = .unchanged) (k : Nat) : inFlags s k = (s.flags, 0) := by
  rw [inFlags, h]

theorem inFlags_draw {s : State} (h : s.cfg.inFlags = .draw) (k : Nat) :
    inFlags s k = (⟨Config.freeBit k, Config.freeBit (k + 1), Config.freeBit (k + 2)⟩, 3) := by
  rw [inFlags, h]

theorem effect_inPort_wroteDest {a d : RegNum} {s : State} (hpc : d ≠ s.cfg.pcRegnum) :
    WroteDest s (effect s (.inPort a d)) d (Config.portRead s.portHistory (readReg s a) s.draws) :=
  wroteDest_congr (writeResult_wroteDest _ _ hpc) rfl

theorem effect_inPort_flags (s : State) (a d : RegNum) :
    (effect s (.inPort a d)).flags = (inFlags s s.draws).1 := by
  rw [effect, State.drew_flags, State.logPortRead_flags, writeResult_flags]

/-- The oracle's choice is one draw, before those of the flags (log 8, 16). -/
theorem effect_inPort_draws (s : State) (a d : RegNum) :
    (effect s (.inPort a d)).draws = s.draws + (1 + (inFlags s s.draws).2) := by
  rw [effect, State.drew_draws, State.logPortRead_draws, writeResult_draws]

/-- Settles O47: `in` is a result write of the oracle's answer and one entry in the history; `IN_FLAGS` gives the flags
and the number of draws. -/
theorem inResult : Obligations.InResult := by
  intro a d s hok hpc
  have hflags := effect_inPort_flags s a d
  have hdraws := effect_inPort_draws s a d
  refine ⟨_, exec_next_iff.mpr ⟨hok, rfl⟩, effect_inPort_wroteDest hpc, effect_inPort_portHistory s a d, fun _ => ?_,
    effect_mark .., effect_cfg .., fun hkept => ?_, fun hdrawn => ?_⟩
  · rw [effect_mem (by simp) (by simp)]
  · rw [hflags, hdraws, inFlags_unchanged hkept]
    exact ⟨rfl, rfl⟩
  · rw [hflags, hdraws, inFlags_draw hdrawn]
    exact ⟨rfl, rfl, rfl, rfl⟩

end Sys2Proof.Machine
end

section
/-! PROOFS. The end of a run at `HALT_ADDR` (70_reset_and_hazards.md R152). -/

namespace Sys2Proof.Machine

open Sys2Proof.Safety Sys2Proof.Claims

/-- What makes a state final: no mark, and `HALT_ADDR` supplied and in pc (R152). -/
theorem isFinal_iff {s : State} : isFinal s = true ↔ s.mark = none ∧ s.cfg.haltAddr = some s.pc := by
  simp only [isFinal, Bool.and_eq_true, Option.isNone_iff_eq_none, decide_eq_true_eq]

/-- Settles O59: the two hypotheses make the state final, and a final state is a fixed point of the run (log 13). -/
theorem finalStateStays : Obligations.FinalStateStays := fun _ hmark hhalt =>
  have hfinal := isFinal_iff.mpr ⟨hmark, hhalt⟩
  ⟨hfinal, runFor_of_isFinal hfinal⟩

end Sys2Proof.Machine
end
